-- ==== Sys2Proof/Word.lean ====
section
/-! DEFINITION. The widths of the machine's words and the operand of an instruction. -/

namespace Sys2Proof

/-- A register, the flag, an immediate, a payload: XLEN = 32 bits (R6, R8). -/
abbrev Word := BitVec 32

/-- The instruction pointer and a label address: PCLEN = 32 bits, unsigned (R6, R28). -/
abbrev PcWord := BitVec 32

/-- A binary instruction word: ILEN = 16 + 2·XLEN = 80 bits (R6, R73). -/
abbrev InstrWord := BitVec 80

/-- One byte of a serialised image (R52). -/
abbrev Byte := BitVec 8

/-- An operand that is present (R71). The fourth kind, ABSENT, is the lack of an operand: a constructor of
`Instr` takes exactly the operands its opcode's arity gives it. -/
inductive Operand where
  /-- REG(n): n is any natural number; it names a register only if 1 ≤ n ≤ 10 (R21). -/
  | reg (n : Nat)
  /-- IMM(v): a full-width two's-complement literal (R75). -/
  | imm (v : Word)
  /-- SYM(i): a symbol index; outside the jumps the semantics ignores it (R75). -/
  | sym (i : Nat)
deriving DecidableEq, Repr

end Sys2Proof
end

