-- ==== Sys2Proof/Config.lean ====
section
/-! DEFINITION. The implementation parameters of the core (R6) at the values the spec gives them. -/

namespace Sys2Proof.Config

/-- NREG, the number of general registers (R6, R20). -/
def nreg : Nat := 10

/-- XLEN (R6; decision D1; log entry 3). `Word` has this width. -/
def xlen : Nat := 32

/-- PCLEN (R6; decision D6; log entry 3). `PcWord` has this width. -/
def pclen : Nat := 32

/-- ILEN = 16 + 2·XLEN (R6, R73). `InstrWord` has this width. -/
def ilen : Nat := 16 + 2 * xlen

/-- The greatest LEN: 2^PCLEN − 1 (R6), so that `pc` = LEN is representable (R28). -/
def maxLen : Nat := 2 ^ pclen - 1

/-- The greatest NLAB: 2^XLEN (R6). -/
def maxLabels : Nat := 2 ^ xlen

/-- What a taken jump to an unresolved label does (R178). -/
inductive UnknownLabelPolicy where
  /-- The strict policy: the fault `UnknownLabel(1)`. -/
  | fault
  /-- The lenient policy: the jump behaves as one that is not taken. -/
  | skip
deriving DecidableEq, Repr

/-- What the division INT_MIN ÷ −1 does (R6, R139; 93_implementation_defined.md U4). -/
inductive DivOverflowPolicy where
  /-- The quotient wraps to INT_MIN. -/
  | wrap
  /-- The division faults. -/
  | fault
deriving DecidableEq, Repr

/-- UNKNOWN_LABEL_POLICY = fault (R6, R178; decision D8; log entry 6). -/
def unknownLabelPolicy : UnknownLabelPolicy := .fault

/-- DIV_OVERFLOW = wrap (R6, R139; decision D5; log entry 7). -/
def divOverflow : DivOverflowPolicy := .wrap

end Sys2Proof.Config
end

