-- ==== Sys2Proof/Syntax.lean ====
section
/-! DEFINITION. The abstract instructions (R70, R72): the 18 opcodes, each with the operands its arity gives it. -/

namespace Sys2Proof

/-- An abstract instruction (R70, R72). `a` is the first operand, `b` the second; `label` is the label index of a
jump's SYM operand (R71, R75). -/
inductive Instr where
  | mov (a b : Operand)
  | add (a b : Operand)
  | sub (a b : Operand)
  | mul (a b : Operand)
  | div (a b : Operand)
  | and (a b : Operand)
  | or (a b : Operand)
  | not (a : Operand)
  | inc (a : Operand)
  | dec (a : Operand)
  | cmp (a b : Operand)
  | jmp (label : Nat)
  | je (label : Nat)
  | jg (label : Nat)
  | jl (label : Nat)
  | jge (label : Nat)
  | jle (label : Nat)
  | print (a : Operand)
deriving DecidableEq, Repr

/-- The first operand; a jump's is SYM(label index) (R71). -/
def Instr.first : Instr → Operand
  | .mov a _ | .add a _ | .sub a _ | .mul a _ | .div a _ | .and a _ | .or a _ | .cmp a _ => a
  | .not a | .inc a | .dec a | .print a => a
  | .jmp l | .je l | .jg l | .jl l | .jge l | .jle l => .sym l

/-- The second operand, `none` where it is ABSENT (R70). -/
def Instr.second : Instr → Option Operand
  | .mov _ b | .add _ b | .sub _ b | .mul _ b | .div _ b | .and _ b | .or _ b | .cmp _ b => some b
  | .not _ | .inc _ | .dec _ | .print _ => none
  | .jmp _ | .je _ | .jg _ | .jl _ | .jge _ | .jle _ => none

end Sys2Proof
end

