-- ==== Sys2Proof/WellFormed.lean ====
section
/-! DEFINITION. Which abstract instructions a binary word can hold (R73, R75): every payload fits its field. That a
two-operand instruction has two operands and a jump a label (R77) holds by the shape of `Instr`. -/

namespace Sys2Proof

/-- A register number and a symbol index are unsigned numbers of XLEN bits (R75). An immediate always fits. -/
def Operand.wellFormed : Operand → Bool
  | .reg n => decide (n < 2 ^ 32)
  | .imm _ => true
  | .sym i => decide (i < 2 ^ 32)

/-- Every operand of the instruction fits its payload field (R75). -/
def Instr.wellFormed : Instr → Bool
  | .mov a b | .add a b | .sub a b | .mul a b | .div a b | .and a b | .or a b | .cmp a b =>
    a.wellFormed && b.wellFormed
  | .not a | .inc a | .dec a | .print a => a.wellFormed
  | .jmp l | .je l | .jg l | .jl l | .jge l | .jle l => decide (l < 2 ^ 32)

end Sys2Proof
end

