-- ==== Sys2Proof/Decode.lean ====
section
/-! DEFINITION. The binary instruction word: its fields, the decoder, the encoder, the match-and-mask table, and the
byte order of a serialised image (R52, R73 to R80, R89). -/

namespace Sys2Proof

/-! ### The fields of a word (R73) -/

/-- `opc`, bits [79:72]. -/
def opcField (w : InstrWord) : BitVec 8 := w.extractLsb' 72 8
/-- `k1`, bits [71:70]. -/
def k1Field (w : InstrWord) : BitVec 2 := w.extractLsb' 70 2
/-- `k2`, bits [69:68]. -/
def k2Field (w : InstrWord) : BitVec 2 := w.extractLsb' 68 2
/-- `rsv`, bits [67:64]. -/
def rsvField (w : InstrWord) : BitVec 4 := w.extractLsb' 64 4
/-- `a`, bits [63:32]. -/
def aField (w : InstrWord) : Word := w.extractLsb' 32 32
/-- `b`, bits [31:0]. -/
def bField (w : InstrWord) : Word := w.extractLsb' 0 32

/-- A word from its fields, most significant first (R73). -/
def packWord (opc : BitVec 8) (k1 k2 : BitVec 2) (rsv : BitVec 4) (a b : Word) : InstrWord :=
  opc ++ k1 ++ k2 ++ rsv ++ a ++ b

/-! ### Operand kinds (R74, R75) -/

/-- The kind code of an operand that is present: 01 REG, 10 IMM, 11 SYM; 00 is ABSENT (R74). -/
def Operand.kindCode : Operand → BitVec 2
  | .reg _ => 1
  | .imm _ => 2
  | .sym _ => 3

/-- The payload of an operand (R75). A register number that does not fit is written as 2^XLEN − 1 (R87), which is
invalid like every number above 10. -/
def Operand.payload : Operand → Word
  | .reg n => if n < 2 ^ 32 then BitVec.ofNat 32 n else BitVec.allOnes 32
  | .imm v => v
  | .sym i => BitVec.ofNat 32 i

/-- `operand(k, p)` of R78: the operand of kind code `k` with payload `p`; `none` is ABSENT. -/
def operandOf (k : BitVec 2) (p : Word) : Option Operand :=
  if k = 1 then some (.reg p.toNat)
  else if k = 2 then some (.imm p)
  else if k = 3 then some (.sym p.toNat)
  else none

/-! ### The decoder (R76 to R78) -/

/-- Why a word is no instruction (R78). -/
inductive DecodeError where
  /-- `UNKNOWN`: `opc` is not one of 0x01..0x12. -/
  | unknownOpcode
  /-- `MALFORMED`: a known `opc`, and `rsv`, the kinds or `b` break the table of R77. -/
  | malformedInstruction
deriving DecidableEq, Repr

/-- The two-operand class of R77. -/
def decodeTwo (make : Operand → Operand → Instr) (w : InstrWord) : Except DecodeError Instr :=
  if rsvField w = 0 then
    match operandOf (k1Field w) (aField w), operandOf (k2Field w) (bField w) with
    | some a, some b => .ok (make a b)
    | _, _ => .error .malformedInstruction
  else .error .malformedInstruction

/-- The one-operand class of R77. -/
def decodeOne (make : Operand → Instr) (w : InstrWord) : Except DecodeError Instr :=
  if rsvField w = 0 ∧ k2Field w = 0 ∧ bField w = 0 then
    match operandOf (k1Field w) (aField w) with
    | some a => .ok (make a)
    | none => .error .malformedInstruction
  else .error .malformedInstruction

/-- The jump class of R77. -/
def decodeJump (make : Nat → Instr) (w : InstrWord) : Except DecodeError Instr :=
  if rsvField w = 0 ∧ k1Field w = 3 ∧ k2Field w = 0 ∧ bField w = 0 then .ok (make (aField w).toNat)
  else .error .malformedInstruction

/-- The decoder (R78), total on any 80-bit word, by the opcode numbers of R76. -/
def decode (w : InstrWord) : Except DecodeError Instr :=
  match (opcField w).toNat with
  | 0x01 => decodeTwo .mov w
  | 0x02 => decodeTwo .add w
  | 0x03 => decodeTwo .sub w
  | 0x04 => decodeTwo .mul w
  | 0x05 => decodeTwo .div w
  | 0x06 => decodeTwo .and w
  | 0x07 => decodeTwo .or w
  | 0x08 => decodeOne .not w
  | 0x09 => decodeOne .inc w
  | 0x0A => decodeOne .dec w
  | 0x0B => decodeTwo .cmp w
  | 0x0C => decodeJump .jmp w
  | 0x0D => decodeJump .je w
  | 0x0E => decodeJump .jg w
  | 0x0F => decodeJump .jl w
  | 0x10 => decodeJump .jge w
  | 0x11 => decodeJump .jle w
  | 0x12 => decodeOne .print w
  | _ => .error .unknownOpcode

/-! ### The encoder -/

/-- The opcode number of an instruction (R76). -/
def Instr.opcode : Instr → BitVec 8
  | .mov _ _ => 0x01
  | .add _ _ => 0x02
  | .sub _ _ => 0x03
  | .mul _ _ => 0x04
  | .div _ _ => 0x05
  | .and _ _ => 0x06
  | .or _ _ => 0x07
  | .not _ => 0x08
  | .inc _ => 0x09
  | .dec _ => 0x0A
  | .cmp _ _ => 0x0B
  | .jmp _ => 0x0C
  | .je _ => 0x0D
  | .jg _ => 0x0E
  | .jl _ => 0x0F
  | .jge _ => 0x10
  | .jle _ => 0x11
  | .print _ => 0x12

/-- The kind code of a second operand, 00 where it is ABSENT (R74). -/
def optKindCode : Option Operand → BitVec 2
  | some o => o.kindCode
  | none => 0

/-- The payload of a second operand, 0 where it is ABSENT (R75). -/
def optPayload : Option Operand → Word
  | some o => o.payload
  | none => 0

/-- The word of an instruction (R73 to R77). -/
def encode (i : Instr) : InstrWord :=
  packWord i.opcode i.first.kindCode (optKindCode i.second) 0 i.first.payload (optPayload i.second)

/-! ### The opcode table (R72, R77, R89) -/

/-- The class of an opcode (R77). -/
inductive Shape where
  | two
  | one
  | jump
deriving DecidableEq, Repr

/-- The number of operands (R72). -/
def Shape.arity : Shape → Nat
  | .two => 2
  | .one => 1
  | .jump => 1

/-- The class's mask (R89). -/
def Shape.mask : Shape → InstrWord
  | .two => 0xFF0F0000000000000000
  | .one => 0xFF3F00000000FFFFFFFF
  | .jump => 0xFFFF00000000FFFFFFFF

/-- The class's constraint beyond the mask (R89). -/
def Shape.constraint (sh : Shape) (w : InstrWord) : Bool :=
  match sh with
  | .two => decide (k1Field w ≠ 0) && decide (k2Field w ≠ 0)
  | .one => decide (k1Field w ≠ 0)
  | .jump => true

/-- A row of the opcode table: mnemonic, opcode number, class (R72, R76, R77). -/
structure OpcodeRow where
  mnemonic : List Char
  opc : BitVec 8
  shape : Shape
deriving DecidableEq, Repr

/-- The row's match word: `opc` shifted left by 72, for a jump together with k1 = SYM (R89). -/
def OpcodeRow.matchWord (r : OpcodeRow) : InstrWord :=
  match r.shape with
  | .jump => (r.opc.setWidth 80 <<< 72) ||| 0x00C00000000000000000
  | _ => r.opc.setWidth 80 <<< 72

/-- A word is an instance of the row (R89). -/
def OpcodeRow.isInstance (r : OpcodeRow) (w : InstrWord) : Bool :=
  decide (w &&& r.shape.mask = r.matchWord) && r.shape.constraint w

/-- The 18 rows, in the order of the source's table (R72, R76). -/
def opcodeTable : List OpcodeRow :=
  [⟨['M', 'O', 'V'], 0x01, .two⟩, ⟨['A', 'D', 'D'], 0x02, .two⟩, ⟨['S', 'U', 'B'], 0x03, .two⟩,
   ⟨['M', 'U', 'L'], 0x04, .two⟩, ⟨['D', 'I', 'V'], 0x05, .two⟩, ⟨['A', 'N', 'D'], 0x06, .two⟩,
   ⟨['O', 'R'], 0x07, .two⟩, ⟨['N', 'O', 'T'], 0x08, .one⟩, ⟨['I', 'N', 'C'], 0x09, .one⟩,
   ⟨['D', 'E', 'C'], 0x0A, .one⟩, ⟨['C', 'M', 'P'], 0x0B, .two⟩, ⟨['J', 'M', 'P'], 0x0C, .jump⟩,
   ⟨['J', 'E'], 0x0D, .jump⟩, ⟨['J', 'G'], 0x0E, .jump⟩, ⟨['J', 'L'], 0x0F, .jump⟩,
   ⟨['J', 'G', 'E'], 0x10, .jump⟩, ⟨['J', 'L', 'E'], 0x11, .jump⟩, ⟨['P', 'R', 'I', 'N', 'T'], 0x12, .one⟩]

/-! ### Serialised words (R52): most significant byte first -/

/-- The ten bytes of a word, most significant first (R52). -/
def wordToBytes (w : InstrWord) : List Byte :=
  [w.extractLsb' 72 8, w.extractLsb' 64 8, w.extractLsb' 56 8, w.extractLsb' 48 8, w.extractLsb' 40 8,
   w.extractLsb' 32 8, w.extractLsb' 24 8, w.extractLsb' 16 8, w.extractLsb' 8 8, w.extractLsb' 0 8]

/-- The first word of a byte stream and the bytes after it; `none` if fewer than ten bytes are left
(log entry 13). -/
def takeWord : List Byte → Option (InstrWord × List Byte)
  | b9 :: b8 :: b7 :: b6 :: b5 :: b4 :: b3 :: b2 :: b1 :: b0 :: rest =>
    some (b9 ++ b8 ++ b7 ++ b6 ++ b5 ++ b4 ++ b3 ++ b2 ++ b1 ++ b0, rest)
  | _ => none

/-- The decoder on a byte stream: what the first ten bytes decode to, and the bytes after them. -/
def decodeBytes (bytes : List Byte) : Option (Except DecodeError Instr × List Byte) :=
  match takeWord bytes with
  | some (w, rest) => some (decode w, rest)
  | none => none

/-- The words of a program, serialised in address order (R52). -/
def wordsToBytes : List InstrWord → List Byte
  | [] => []
  | w :: ws => wordToBytes w ++ wordsToBytes ws

/-- The words of a serialised program; `none` if its length is no multiple of ten (log entry 13). -/
def wordsOfBytes : (fuel : Nat) → List Byte → Option (List InstrWord)
  | _, [] => some []
  | 0, _ :: _ => none
  | fuel + 1, bytes =>
    match takeWord bytes with
    | some (w, rest) => (wordsOfBytes fuel rest).map (w :: ·)
    | none => none

/-! ### The table's numbering of bits -/

/-- The instruction word whose bits, numbered as opcode_table.json numbers them (one word, bit 0 the least
significant), are the low `nbits` bits of `w`; the bits above are 0 (log entry 12). -/
def tableWord (nbits w : Nat) : InstrWord := BitVec.ofNat 80 (w % 2 ^ nbits)

/-- The instruction the decoder reads from the word of opcode_table.json's numbering; `none` where it refuses, and for
more bits than the one instruction length has (R80; log entry 12). -/
def decodeTableWord (nbits w : Nat) : Option Instr :=
  if nbits ≤ 80 then
    match decode (tableWord nbits w) with
    | .ok i => some i
    | .error _ => none
  else none

end Sys2Proof
end

