-- ==== Sys2Proof/Machine/State.lean ====
section
/-! DEFINITION. The whole state of the core as plain data (R20 to R35), the reasons a step can stop, and the state
after reset (R34). -/

namespace Sys2Proof.Machine

/-- The ten general registers' names; there is no R0 (R20). -/
inductive RegName where
  | r1 | r2 | r3 | r4 | r5 | r6 | r7 | r8 | r9 | r10
deriving DecidableEq, Repr

/-- The register file: ten XLEN-bit registers (R20). -/
structure RegFile where
  r1 : Word
  r2 : Word
  r3 : Word
  r4 : Word
  r5 : Word
  r6 : Word
  r7 : Word
  r8 : Word
  r9 : Word
  r10 : Word
deriving DecidableEq, Repr

/-- The six run-time faults of the core (R190). -/
inductive FaultCode where
  | unknownOpcode
  | malformedInstruction
  | invalidRegister
  | malformedOperand
  | divisionByZero
  | unknownLabel
deriving DecidableEq, Repr

/-- Which operand a fault blames: 0, 1 or 2 (R9, R27). -/
inductive OperandPos where
  | noOperand
  | first
  | second
deriving DecidableEq, Repr

/-- The contents `some(code, at, opnd)` of the fault record (R27); the field `pc` is the spec's `at`. -/
structure FaultRecord where
  code : FaultCode
  pc : PcWord
  opnd : OperandPos
deriving DecidableEq, Repr

/-- One record of the output stream: a register and the value it held (R186). -/
structure OutRecord where
  reg : RegName
  value : Word
deriving DecidableEq, Repr

/-- The program image (R30, R31): LEN is the length of `imem`, NLAB the length of `labels`. It is read-only for a run
(R60) and no byte-addressed memory (R50, R52; log entry 5). -/
structure Image where
  imem : List InstrWord
  labels : List (Option PcWord)
deriving DecidableEq, Repr

/-- The state of the core: registers (R20), comparison flag (R25), instruction pointer (R28), fault record (R27),
output stream in execution order (R62, R186), and the program image it runs (R30, R31). -/
structure State where
  regs : RegFile
  flag : Word
  pc : PcWord
  fault : Option FaultRecord
  output : List OutRecord
  image : Image
deriving DecidableEq, Repr

/-- Why the core has no step (R32, R111). Both are raised by `step`'s status check alone, never by an instruction: an
instruction's fault is a next state that holds the fault record (R199). Both are safe: the core of the spec has no
step there either (log entry 1). -/
inductive Fault where
  /-- The status is Halted: `pc` is outside [0, LEN). The normal end of a run, not a fault of the spec (R201). Raised
  by `step`; safe. -/
  | halted
  /-- The status is Faulted: `fault` holds this record (R111, R200). Raised by `step`; safe. -/
  | faulted (record : FaultRecord)
deriving DecidableEq, Repr

/-- Why the model has no answer. -/
inductive Refusal where
  /-- The instruction has no meaning yet. Raised by `exec`'s refused arms, of which there is none; safe. -/
  | notModelled (mnemonic : String)
deriving DecidableEq, Repr

/-- The outcome of an instruction or a step. -/
abbrev Result := Host.Outcome State Fault Refusal

/-- The register file after reset: all zero (R34). -/
def RegFile.zero : RegFile := ⟨0, 0, 0, 0, 0, 0, 0, 0, 0, 0⟩

/-- No program: LEN = 0, NLAB = 0. -/
def Image.empty : Image := ⟨[], []⟩

/-- The state after reset (R34, R220), with no image loaded (log entry 4): registers 0, `flag` 0 (the spec's decision
D7), `pc` 0, no fault, no output. -/
def State.reset : State :=
  { regs := RegFile.zero, flag := 0, pc := 0, fault := none, output := [], image := Image.empty }

end Sys2Proof.Machine
end

