-- ==== Sys2Proof/Machine/Ops.lean ====
section
/-! DEFINITION. The operations every instruction is written over: the register file's contract (R21, R22), taking a
fault (R199), the pc update (R116), the run status (R32), fetch (R51), label resolution (R170), the output stream
(R186), reset and the loading of an image (R220, R222). -/

namespace Sys2Proof.Machine

/-! ### Registers -/

/-- The index of a register, 1..10 (R20). -/
def RegName.index : RegName → Nat
  | .r1 => 1 | .r2 => 2 | .r3 => 3 | .r4 => 4 | .r5 => 5
  | .r6 => 6 | .r7 => 7 | .r8 => 8 | .r9 => 9 | .r10 => 10

/-- The register a reference names; valid if and only if 1 ≤ n ≤ 10 (R21). -/
def RegName.ofNumber : Nat → Option RegName
  | 1 => some .r1 | 2 => some .r2 | 3 => some .r3 | 4 => some .r4 | 5 => some .r5
  | 6 => some .r6 | 7 => some .r7 | 8 => some .r8 | 9 => some .r9 | 10 => some .r10
  | _ => none

/-- `x[i]`. -/
def RegFile.get (f : RegFile) : RegName → Word
  | .r1 => f.r1 | .r2 => f.r2 | .r3 => f.r3 | .r4 => f.r4 | .r5 => f.r5
  | .r6 => f.r6 | .r7 => f.r7 | .r8 => f.r8 | .r9 => f.r9 | .r10 => f.r10

/-- `x[i] <- v`. -/
def RegFile.set (f : RegFile) (r : RegName) (v : Word) : RegFile :=
  match r with
  | .r1 => { f with r1 := v } | .r2 => { f with r2 := v } | .r3 => { f with r3 := v }
  | .r4 => { f with r4 := v } | .r5 => { f with r5 := v } | .r6 => { f with r6 := v }
  | .r7 => { f with r7 := v } | .r8 => { f with r8 := v } | .r9 => { f with r9 := v }
  | .r10 => { f with r10 := v }

/-- `x[r] <- v` in the state. -/
def State.writeReg (s : State) (r : RegName) (v : Word) : State := { s with regs := s.regs.set r v }

/-! ### Checks and faults -/

/-- A check that failed: the fault's code and the operand it blames (R115, R190). -/
structure Failure where
  code : FaultCode
  opnd : OperandPos
deriving DecidableEq, Repr

/-- The numeric code of a fault (R190). -/
def FaultCode.number : FaultCode → Nat
  | .unknownOpcode => 1
  | .malformedInstruction => 2
  | .invalidRegister => 3
  | .malformedOperand => 4
  | .divisionByZero => 5
  | .unknownLabel => 6

/-- The number of an operand position (R9). -/
def OperandPos.number : OperandPos → Nat
  | .noOperand => 0
  | .first => 1
  | .second => 2

/-- Fault entry, `raise F(n)` (R199): the fault record is written with the code, the `pc` and the operand; nothing else
changes. There is no handler and no return from it (R199, R200). -/
def raise (e : Failure) (s : State) : Result :=
  .next { s with fault := some ⟨e.code, s.pc, e.opnd⟩ }

/-- Go on with a checked value, or take the fault of the check that failed (R115). -/
def andThen {α : Type} (check : Except Failure α) (s : State) (k : α → Result) : Result :=
  match check with
  | .ok v => k v
  | .error e => raise e s

/-- The register file's `get(n)` (R22), for a reference in operand position `p`. -/
def getReg (n : Nat) (p : OperandPos) (s : State) : Except Failure Word :=
  match RegName.ofNumber n with
  | some r => .ok (s.regs.get r)
  | none => .error ⟨.invalidRegister, p⟩

/-- The register file's `set(n, v)` (R22), validated as `getReg` is. -/
def setReg (n : Nat) (v : Word) (p : OperandPos) (s : State) : Except Failure State :=
  match RegName.ofNumber n with
  | some r => .ok (s.writeReg r v)
  | none => .error ⟨.invalidRegister, p⟩

/-- The register file's `set_from(n, m)` (R22): both references validate before anything is written, the first
first (R115). -/
def setRegFrom (n m : Nat) (s : State) : Except Failure State :=
  match RegName.ofNumber n with
  | none => .error ⟨.invalidRegister, .first⟩
  | some r =>
    match RegName.ofNumber m with
    | none => .error ⟨.invalidRegister, .second⟩
    | some q => .ok (s.writeReg r (s.regs.get q))

/-! ### The instruction pointer -/

/-- `pc <- pc + 1` (R116). -/
def State.advance (s : State) : State := { s with pc := s.pc + 1 }

/-- `pc <- t`, with no further increment (R116). -/
def State.jumpTo (s : State) (t : PcWord) : State := { s with pc := t }

/-! ### The program image -/

/-- LEN (R30). -/
def Image.len (im : Image) : Nat := im.imem.length

/-- NLAB (R6, R31). -/
def Image.nlab (im : Image) : Nat := im.labels.length

/-- `IMem[p]` (R30, R51): a pure read of one whole word; there is none at LEN and above (R55). -/
def Image.fetch (im : Image) (p : Nat) : Option InstrWord := im.imem[p]?

/-- `resolve(i)` (R170): the label's address, or `none` for an undeclared label and for every index ≥ NLAB. -/
def Image.resolve (im : Image) (i : Nat) : Option PcWord :=
  match im.labels[i]? with
  | some (some t) => some t
  | _ => none

/-- The image keeps the bounds of R6 and R31: LEN ≤ 2^PCLEN − 1, NLAB ≤ 2^XLEN, every label address ≤ LEN. -/
def Image.wf (im : Image) : Bool :=
  decide (im.imem.length ≤ Config.maxLen) && decide (im.labels.length ≤ Config.maxLabels) &&
    im.labels.all fun entry =>
      match entry with
      | some t => decide (t.toNat ≤ im.imem.length)
      | none => true

/-- Put word `w` at address `p`; addresses below `p` that hold nothing yet are filled with the all-zero word, an
UNKNOWN one (R79), since a program has no holes (R55). A load step of the host, no instruction. -/
def placeWord : List InstrWord → Nat → InstrWord → List InstrWord
  | [], 0, w => [w]
  | [], p + 1, w => 0 :: placeWord [] p w
  | _ :: ws, 0, w => w :: ws
  | x :: ws, p + 1, w => x :: placeWord ws p w

/-! ### The run status (R32) -/

/-- `Running`, `Halted` or `Faulted` (R32). -/
inductive Status where
  | running
  | halted
  | faulted
deriving DecidableEq, Repr

/-- The status of a state (R32). -/
def State.status (s : State) : Status :=
  match s.fault with
  | some _ => .faulted
  | none => if s.image.len ≤ s.pc.toNat then .halted else .running

/-- A run has ended normally (R118). -/
def State.endedNormally (s : State) : Bool :=
  decide (s.fault = none) && decide (s.image.len ≤ s.pc.toNat)

/-- Fetch and decode at `pc` (R111, R112): why the core has no step, or what the word at `pc` decodes to. -/
def State.fetchDecode (s : State) : Except Fault (Except DecodeError Instr) :=
  match s.fault with
  | some r => .error (.faulted r)
  | none =>
    match s.image.fetch s.pc.toNat with
    | none => .error .halted
    | some w => .ok (decode w)

/-- The fault of a word that is no instruction (R112): it blames no operand. -/
def decodeFailure : DecodeError → Failure
  | .unknownOpcode => ⟨.unknownOpcode, .noOperand⟩
  | .malformedInstruction => ⟨.malformedInstruction, .noOperand⟩

/-! ### Output -/

/-- `emit(i, v)` (R186): the record is appended to the output stream. -/
def State.emit (s : State) (r : RegName) (v : Word) : State := { s with output := s.output ++ [⟨r, v⟩] }

/-! ### Reset and load, the host's actions (R220 to R222; log entries 4 and 14) -/

/-- The reset input: every piece of state at its reset value, the image kept (R34, R220). -/
def State.applyReset (s : State) : State := { State.reset with image := s.image }

/-- A core with a loaded image, reset released (R222). -/
def State.boot (im : Image) : State := { State.reset with image := im }

end Sys2Proof.Machine
end

