-- ==== Sys2Proof/Machine/Alu.lean ====
section
/-! DEFINITION. The integer ALU: results are computed over the integers and wrapped (R8, R142), bitwise operations act on
patterns (R153). -/

namespace Sys2Proof.Machine

/-- `sval(p)`: the signed number a pattern stands for (R8). -/
abbrev sval (p : Word) : Int := p.toInt

/-- `wrap(v)`: two's-complement wraparound (R8; decision D2); given as the pattern of its result. -/
def wrap (v : Int) : Word := BitVec.ofInt 32 v

/-- ADD's function (R136). -/
def aluAdd (s v : Word) : Word := wrap (sval s + sval v)

/-- SUB's function, and CMP's difference (R137, R165). -/
def aluSub (s v : Word) : Word := wrap (sval s - sval v)

/-- MUL's function: the low XLEN bits of the product (R138). -/
def aluMul (s v : Word) : Word := wrap (sval s * sval v)

/-- `trunc(s / v) = sign(s)·sign(v)·floor(|s| / |v|)`, the quotient rounded toward zero (R139; decision D4). -/
def truncDiv (s v : Int) : Int := s.sign * v.sign * ((s.natAbs / v.natAbs : Nat) : Int)

/-- DIV's function for a divisor that is not 0 (R139); INT_MIN ÷ −1 wraps. -/
def aluDiv (s v : Word) : Word := wrap (truncDiv (sval s) (sval v))

/-- The one operand pair whose quotient does not fit (R139). -/
def divOverflows (s v : Word) : Bool := decide (s = BitVec.intMin 32) && decide (sval v = -1)

/-- AND's function (R150, R153). -/
def aluAnd (s v : Word) : Word := s &&& v

/-- OR's function (R151, R153). -/
def aluOr (s v : Word) : Word := s ||| v

/-- NOT's function (R152, R153). -/
def aluNot (s : Word) : Word := ~~~s

/-- INC's function (R160). -/
def aluInc (s : Word) : Word := wrap (sval s + 1)

/-- DEC's function (R161). -/
def aluDec (s : Word) : Word := wrap (sval s - 1)

end Sys2Proof.Machine
end

