-- ==== Sys2Proof/Machine/Operands.lean ====
section
/-! DEFINITION. Operand evaluation (R113, R114) and the operand patterns the instructions share (R135, R115). -/

namespace Sys2Proof.Machine

/-- `valueof(o, p)`: the operand multiplexer (R113). It changes no state. -/
def valueof (o : Operand) (p : OperandPos) (s : State) : Except Failure Word :=
  match o with
  | .reg n => getReg n p s
  | .imm v => .ok v
  | .sym _ => .error ⟨.malformedOperand, p⟩

/-- `dest(o)`: the register the first operand names (R114). A literal or a symbol there is `InvalidRegister(1)`
(decision D15). It changes no state. -/
def dest (o : Operand) : Except Failure RegName :=
  match o with
  | .reg n =>
    match RegName.ofNumber n with
    | some r => .ok r
    | none => .error ⟨.invalidRegister, .first⟩
  | .imm _ => .error ⟨.invalidRegister, .first⟩
  | .sym _ => .error ⟨.invalidRegister, .first⟩

/-- `x[d] <- v; pc <- pc + 1`. -/
def writeAndAdvance (d : RegName) (v : Word) (s : State) : Result := .next (s.writeReg d v).advance

/-- The two-operand template (R135) with a function that may fail its own check: the destination, then the source,
then the check, and only then the write (R115). -/
def twoOperandChecked (f : Word → Word → Except Failure Word) (a b : Operand) (s : State) : Result :=
  andThen (dest a) s fun d =>
    andThen (valueof b .second s) s fun v =>
      andThen (f (s.regs.get d) v) s fun r => writeAndAdvance d r s

/-- The two-operand template (R135). -/
def twoOperand (f : Word → Word → Word) (a b : Operand) (s : State) : Result :=
  twoOperandChecked (fun x v => .ok (f x v)) a b s

/-- The one-operand pattern of NOT, INC and DEC (R152, R160, R161). -/
def oneOperand (f : Word → Word) (a : Operand) (s : State) : Result :=
  andThen (dest a) s fun d => writeAndAdvance d (f (s.regs.get d)) s

end Sys2Proof.Machine
end

