-- ==== Sys2Proof/Machine/Arithmetic.lean ====
section
/-! DEFINITION. ADD, SUB, MUL, DIV (R135 to R139, R142). -/

namespace Sys2Proof.Machine

/-- ADD: signed addition with wraparound (R136). -/
def execAdd (a b : Operand) (s : State) : Result := twoOperand aluAdd a b s

/-- SUB: signed subtraction with wraparound; the first operand is the minuend (R137). -/
def execSub (a b : Operand) (s : State) : Result := twoOperand aluSub a b s

/-- MUL: signed multiplication, low XLEN bits (R138). -/
def execMul (a b : Operand) (s : State) : Result := twoOperand aluMul a b s

/-- DIV's own check and function under a policy for INT_MIN ÷ −1 (R139; 93_implementation_defined.md U4): a zero
divisor faults; under the policy not selected, `fault`, the overflow raises DivisionByZero(2) too (log entry 7). -/
def divChecked (policy : Config.DivOverflowPolicy) (x v : Word) : Except Failure Word :=
  if v = 0 then .error ⟨.divisionByZero, .second⟩
  else
    match policy with
    | .wrap => .ok (aluDiv x v)
    | .fault => if divOverflows x v then .error ⟨.divisionByZero, .second⟩ else .ok (aluDiv x v)

/-- DIV: signed division truncated toward zero; division by zero faults (R139). -/
def execDiv (a b : Operand) (s : State) : Result := twoOperandChecked (divChecked Config.divOverflow) a b s

end Sys2Proof.Machine
end

