-- ==== Sys2Proof/Machine/Bitwise.lean ====
section
/-! DEFINITION. AND, OR, NOT (R150 to R153). -/

namespace Sys2Proof.Machine

/-- AND: bitwise conjunction (R150). -/
def execAnd (a b : Operand) (s : State) : Result := twoOperand aluAnd a b s

/-- OR: bitwise inclusive disjunction (R151). -/
def execOr (a b : Operand) (s : State) : Result := twoOperand aluOr a b s

/-- NOT: bitwise complement of a register, in place (R152). -/
def execNot (a : Operand) (s : State) : Result := oneOperand aluNot a s

end Sys2Proof.Machine
end

