-- ==== Sys2Proof/Machine/Flags.lean ====
section
/-! DEFINITION. The comparison flag: what CMP writes into it (R165) and the predicates of the conditional jumps
(R167, R177). -/

namespace Sys2Proof.Machine

/-- The wrapped difference CMP stores (R165, R166; decision D3). -/
def compareFlag (u v : Word) : Word := aluSub u v

/-- `flag = 0` (R172). -/
def flagZero (f : Word) : Bool := decide (sval f = 0)

/-- `flag > 0` (R173). -/
def flagPositive (f : Word) : Bool := decide (0 < sval f)

/-- `flag < 0` (R174). -/
def flagNegative (f : Word) : Bool := decide (sval f < 0)

/-- `flag ≥ 0` (R175). -/
def flagNonNegative (f : Word) : Bool := decide (0 ≤ sval f)

/-- `flag ≤ 0` (R176). -/
def flagNonPositive (f : Word) : Bool := decide (sval f ≤ 0)

/-- `flag <- f` in the state. -/
def State.writeFlag (s : State) (f : Word) : State := { s with flag := f }

end Sys2Proof.Machine
end

