-- ==== Sys2Proof/Machine/Compare.lean ====
section
/-! DEFINITION. CMP (R165). -/

namespace Sys2Proof.Machine

/-- CMP: both operands are sources; the wrapped difference goes to the flag (R165). -/
def execCmp (a b : Operand) (s : State) : Result :=
  andThen (valueof a .first s) s fun u =>
    andThen (valueof b .second s) s fun v => .next (s.writeFlag (compareFlag u v)).advance

end Sys2Proof.Machine
end

