-- ==== Sys2Proof/Machine/IncDec.lean ====
section
/-! DEFINITION. INC, DEC (R160, R161). -/

namespace Sys2Proof.Machine

/-- INC: add one to a register, in place (R160). -/
def execInc (a : Operand) (s : State) : Result := oneOperand aluInc a s

/-- DEC: subtract one from a register, in place (R161). -/
def execDec (a : Operand) (s : State) : Result := oneOperand aluDec a s

end Sys2Proof.Machine
end

