-- ==== Sys2Proof/Machine/Jumps.lean ====
section
/-! DEFINITION. JMP, JE, JG, JL, JGE, JLE (R170 to R181). -/

namespace Sys2Proof.Machine

/-- The template of the six jumps (R177) under a policy for unresolved labels (R178). The predicate is tested first;
the label is looked up only if the jump is taken. -/
def branch (policy : Config.UnknownLabelPolicy) (taken : Bool) (label : Nat) (s : State) : Result :=
  if taken then
    match s.image.resolve label with
    | some t => .next (s.jumpTo t)
    | none =>
      match policy with
      | .fault => raise ⟨.unknownLabel, .first⟩ s
      | .skip => .next s.advance
  else .next s.advance

/-- JMP: unconditional jump; the flag is not read (R171). -/
def execJmp (label : Nat) (s : State) : Result := branch Config.unknownLabelPolicy true label s

/-- JE: jump if equal (R172). -/
def execJe (label : Nat) (s : State) : Result := branch Config.unknownLabelPolicy (flagZero s.flag) label s

/-- JG: jump if greater (R173). -/
def execJg (label : Nat) (s : State) : Result := branch Config.unknownLabelPolicy (flagPositive s.flag) label s

/-- JL: jump if less (R174). -/
def execJl (label : Nat) (s : State) : Result := branch Config.unknownLabelPolicy (flagNegative s.flag) label s

/-- JGE: jump if greater or equal (R175). -/
def execJge (label : Nat) (s : State) : Result := branch Config.unknownLabelPolicy (flagNonNegative s.flag) label s

/-- JLE: jump if less or equal (R176). -/
def execJle (label : Nat) (s : State) : Result := branch Config.unknownLabelPolicy (flagNonPositive s.flag) label s

end Sys2Proof.Machine
end

