-- ==== Sys2Proof/Machine/Mov.lean ====
section
/-! DEFINITION. MOV (R130). -/

namespace Sys2Proof.Machine

/-- MOV: copy a register or a literal into a register (R130). The old value of the destination is not read. -/
def execMov (a b : Operand) (s : State) : Result :=
  andThen (dest a) s fun d => andThen (valueof b .second s) s fun v => writeAndAdvance d v s

end Sys2Proof.Machine
end

