-- ==== Sys2Proof/Machine/Print.lean ====
section
/-! DEFINITION. PRINT (R185) and the text line of its record (R186). -/

namespace Sys2Proof.Machine

/-- PRINT: send one register's name and value to the output sink (R185). The sink never fails or blocks. -/
def execPrint (a : Operand) (s : State) : Result :=
  andThen (dest a) s fun d => .next (s.emit d (s.regs.get d)).advance

/-- The character of a decimal digit. -/
def digitChar (d : Nat) : Char := Char.ofNat (48 + d)

/-- The decimal digits of a number below 10^fuel, without leading zeros (R186). -/
def decimalDigits : (fuel : Nat) → Nat → List Char
  | 0, _ => []
  | fuel + 1, n => if n < 10 then [digitChar n] else decimalDigits fuel (n / 10) ++ [digitChar (n % 10)]

/-- A value in decimal, with a leading `-` if it is negative (R186). Ten digits hold every value of `SXLEN`. -/
def valueText (v : Word) : List Char :=
  if v.toInt < 0 then '-' :: decimalDigits 10 v.toInt.natAbs else decimalDigits 10 v.toInt.natAbs

/-- A register's name: `R` and the index in decimal (R186). -/
def RegName.text (r : RegName) : List Char := 'R' :: decimalDigits 10 r.index

/-- The line `name : value` of a record (R186). -/
def OutRecord.line (o : OutRecord) : List Char := o.reg.text ++ [' ', ':', ' '] ++ valueText o.value

/-- The text the sink writes, one line per record in execution order (R62, R186). -/
def outputText (output : List OutRecord) : List (List Char) := output.map OutRecord.line

end Sys2Proof.Machine
end

