-- ==== Sys2Proof/Machine/Dispatch.lean ====
section
/-! DEFINITION. Which meaning executes each instruction (R72, R112). -/

namespace Sys2Proof.Machine

def exec (i : Instr) (s : State) : Host.Outcome State Fault Refusal :=
  match i with
  | .mov a b => Sys2Proof.Machine.execMov a b s
  | .add a b => Sys2Proof.Machine.execAdd a b s
  | .sub a b => Sys2Proof.Machine.execSub a b s
  | .mul a b => Sys2Proof.Machine.execMul a b s
  | .div a b => Sys2Proof.Machine.execDiv a b s
  | .and a b => Sys2Proof.Machine.execAnd a b s
  | .or a b => Sys2Proof.Machine.execOr a b s
  | .not a => Sys2Proof.Machine.execNot a s
  | .inc a => Sys2Proof.Machine.execInc a s
  | .dec a => Sys2Proof.Machine.execDec a s
  | .cmp a b => Sys2Proof.Machine.execCmp a b s
  | .jmp l => Sys2Proof.Machine.execJmp l s
  | .je l => Sys2Proof.Machine.execJe l s
  | .jg l => Sys2Proof.Machine.execJg l s
  | .jl l => Sys2Proof.Machine.execJl l s
  | .jge l => Sys2Proof.Machine.execJge l s
  | .jle l => Sys2Proof.Machine.execJle l s
  | .print a => Sys2Proof.Machine.execPrint a s

end Sys2Proof.Machine
end

