-- ==== Sys2Proof/Machine/Step.lean ====
section
/-! DEFINITION. One step of the core (R110 to R112) and the placing of a word where it is fetched. -/

namespace Sys2Proof.Machine

/-- One step (R110 to R112): a core that is Halted or Faulted has none; otherwise the word at `pc` is decoded, and
either its instruction executes or the fault of the word is taken. -/
def step (s : State) : Host.Outcome State Fault Refusal :=
  match s.fetchDecode with
  | .error r => .fault r
  | .ok (.error e) => raise (decodeFailure e) s
  | .ok (.ok i) => exec i s

/-- `s` with the table's word in the program at `pc` and the status Running, so that the next step runs it; stands for
the host's load (R222; log entry 4). -/
def State.withFetchWord (s : State) (nbits w : Nat) : State :=
  { s with
    fault := none
    image := { s.image with imem := placeWord s.image.imem s.pc.toNat (tableWord nbits w) } }

end Sys2Proof.Machine
end

