-- ==== Sys2Proof/Machine/Assembler.lean ====
section
/-! DEFINITION. From program text to program image (R71, R82 to R88): the lines, the tokens, the label table, the
words. Program text is a list of characters. -/

namespace Sys2Proof.Machine

/-- A token of program text. -/
abbrev Token := List Char

/-- Why a load fails (R85, R197). No program that fails to load produces an image. -/
inductive LoadError where
  /-- Wrong operand count or bad label line; carries the offending line (R83, R84). -/
  | malformedInstruction (line : List Char)
  /-- A label name declared twice; carries the name (R83). -/
  | duplicateLabel (name : Token)
  /-- More instructions than 2^PCLEN − 1 or more labels than 2^XLEN (R6; decision D6; log entry 11). -/
  | imageTooLarge
deriving DecidableEq, Repr

/-! ### Characters, lines, tokens (R82, R84) -/

/-- Space, tab and CR are whitespace (R82). -/
def isWhitespace (c : Char) : Bool := c == ' ' || c == '\t' || c == '\r'

/-- Operands are separated by runs of whitespace and commas (R84). -/
def isSeparator (c : Char) : Bool := isWhitespace c || c == ','

/-- A decimal digit. -/
def isDigit (c : Char) : Bool := decide (48 ≤ c.toNat) && decide (c.toNat ≤ 57)

/-- The pieces of a text between the characters `p` accepts. -/
def splitAtChars (p : Char → Bool) : List Char → List (List Char)
  | [] => [[]]
  | c :: cs =>
    match splitAtChars p cs with
    | piece :: pieces => if p c then [] :: piece :: pieces else (c :: piece) :: pieces
    | [] => [[c]]

/-- Lines are separated by line feeds (R82). -/
def textLines (text : List Char) : List (List Char) := splitAtChars (· == '\n') text

/-- A line without its leading whitespace. -/
def dropLeading : List Char → List Char
  | [] => []
  | c :: cs => if isWhitespace c then dropLeading cs else c :: cs

/-- A line trimmed of leading and trailing whitespace (R82). -/
def trimLine (line : List Char) : List Char := (dropLeading (dropLeading line).reverse).reverse

/-- The tokens of a line: the pieces between maximal runs of separators (R84). -/
def lineTokens (line : List Char) : List Token := (splitAtChars isSeparator line).filter (fun t => !t.isEmpty)

/-! ### Classification of an operand token (R71) -/

/-- The decimal value of a run of digits. -/
def decimalValue (digits : List Char) : Nat := digits.foldl (fun n c => 10 * n + (c.toNat - 48)) 0

/-- One or more digits. -/
def isNumber (t : Token) : Bool := !t.isEmpty && t.all isDigit

/-- The value of an optionally signed decimal literal (R71). -/
def literalValue (t : Token) : Option Int :=
  match t with
  | '+' :: ds => if isNumber ds then some (decimalValue ds : Int) else none
  | '-' :: ds => if isNumber ds then some (-(decimalValue ds : Int)) else none
  | ds => if isNumber ds then some (decimalValue ds : Int) else none

/-- The value lies in `SXLEN` (R8). -/
def fitsWord (v : Int) : Bool := decide (-(2 ^ 31 : Int) ≤ v) && decide (v ≤ 2 ^ 31 - 1)

/-- The literal the token spells, if it is one that fits (R71; decision D14 f). -/
def classifyLiteral (t : Token) : Operand :=
  match literalValue t with
  | some v => if fitsWord v then .imm (BitVec.ofInt 32 v) else .sym 0
  | none => .sym 0

/-- The operand a token is, register first, then literal, else symbol (R71). A symbol outside a jump has payload 0
(R87). -/
def classify (t : Token) : Operand :=
  match t with
  | 'R' :: ds => if isNumber ds then .reg (decimalValue ds) else classifyLiteral t
  | _ => classifyLiteral t

/-! ### Lines into a program (R83 to R86) -/

/-- A parsed program: the instruction lines in order, each a mnemonic and its operand tokens, and the declared labels
in order, each with its address. -/
structure Program where
  lines : List (Token × List Token)
  labels : List (Token × Nat)
deriving DecidableEq, Repr

/-- The row of a mnemonic; `none` is an unknown mnemonic (R72). Mnemonics are case-sensitive (R84). -/
def lookupMnemonic (m : Token) : Option OpcodeRow := opcodeTable.find? (fun r => r.mnemonic == m)

/-- The operand count a mnemonic may have: exactly its arity, up to two for an unknown one (R84). -/
def operandCountOk (m : Token) (n : Nat) : Bool :=
  match lookupMnemonic m with
  | some row => decide (n = row.shape.arity)
  | none => decide (n ≤ 2)

/-- One line of the text (R82 to R84, R86). A label's address is the number of instruction lines before it. -/
def loadLine (p : Program) (raw : List Char) : Except LoadError Program :=
  match trimLine raw with
  | [] => .ok p
  | ':' :: name =>
    if name.isEmpty || name.any isSeparator then .error (.malformedInstruction (':' :: name))
    else if p.labels.any (fun l => l.1 == name) then .error (.duplicateLabel name)
    else .ok { p with labels := p.labels ++ [(name, p.lines.length)] }
  | c :: cs =>
    match lineTokens (c :: cs) with
    | [] => .error (.malformedInstruction (c :: cs))
    | m :: operands =>
      if operandCountOk m operands.length then .ok { p with lines := p.lines ++ [(m, operands)] }
      else .error (.malformedInstruction (c :: cs))

/-- The lines of a text, in order; the first bad line stops the load (log entry 10). -/
def loadLines : Program → List (List Char) → Except LoadError Program
  | p, [] => .ok p
  | p, l :: ls =>
    match loadLine p l with
    | .ok q => loadLines q ls
    | .error e => .error e

/-! ### The image (R87) -/

/-- The label names jumps refer to, in order. -/
def jumpReferences : List (Token × List Token) → List Token
  | [] => []
  | (m, operands) :: rest =>
    match lookupMnemonic m with
    | some row => if row.shape = .jump then operands ++ jumpReferences rest else jumpReferences rest
    | none => jumpReferences rest

/-- `known` followed by the references it lacks, each once, in the order of first reference (R87). -/
def addReferences (known : List Token) : List Token → List Token
  | [] => known
  | t :: ts => if known.contains t then addReferences known ts else addReferences (known ++ [t]) ts

/-- The names that have a label index, in the order of the indices (R87). -/
def Program.names (p : Program) : List Token := addReferences (p.labels.map Prod.fst) (jumpReferences p.lines)

/-- The label table: the declared labels' addresses, then `none` for each undeclared name (R31, R87). -/
def Program.labelTable (p : Program) : List (Option PcWord) :=
  p.labels.map (fun l => some (BitVec.ofNat 32 l.2)) ++
    List.replicate (p.names.length - p.labels.length) none

/-- The word of an instruction line, given the names in the order of their indices (R87). -/
def lineWord (names : List Token) (m : Token) (operands : List Token) : InstrWord :=
  match lookupMnemonic m with
  | some row =>
    if row.shape = .jump then
      packWord row.opc 3 0 0 (BitVec.ofNat 32 (names.idxOf (operands.headD []))) 0
    else
      packWord row.opc (optKindCode (operands[0]?.map classify)) (optKindCode (operands[1]?.map classify)) 0
        (optPayload (operands[0]?.map classify)) (optPayload (operands[1]?.map classify))
  | none =>
    packWord 0xFF (optKindCode (operands[0]?.map classify)) (optKindCode (operands[1]?.map classify)) 0
      (optPayload (operands[0]?.map classify)) (optPayload (operands[1]?.map classify))

/-- The image of a parsed program (R86, R87). -/
def Program.image (p : Program) : Image :=
  { imem := p.lines.map (fun l => lineWord p.names l.1 l.2), labels := p.labelTable }

/-- The loader and assembler: program text to program image, or the load error (R82 to R87). -/
def assemble (text : List Char) : Except LoadError Image :=
  match loadLines ⟨[], []⟩ (textLines text) with
  | .error e => .error e
  | .ok p =>
    if p.lines.length ≤ Config.maxLen ∧ p.names.length ≤ Config.maxLabels then .ok p.image
    else .error .imageTooLarge

end Sys2Proof.Machine
end

