-- ==== Sys2Proof/Machine/Interface.lean ====
section
/-! DEFINITION. The transaction-level interface of the core (R33): what each output port carries. Reading a port has no
effect. -/

namespace Sys2Proof.Machine

/-- `prog_len`: LEN as the port carries it (R33). -/
def State.progLen (s : State) : PcWord := BitVec.ofNat 32 s.image.len

/-- `lt_valid` and `lt_addr`: the label entry at an index; an index ≥ NLAB reads as not valid (R33). -/
def State.ltPort (s : State) (index : Word) : Option PcWord := s.image.resolve index.toNat

/-- The label entry a PCLEN + 1 bit pattern `{valid, addr}` stands for (R31). -/
def labelEntryOfBits (e : BitVec 33) : Option PcWord :=
  if e.extractLsb' 32 1 = 1 then some (e.extractLsb' 0 32) else none

/-- `imem_word`: the word at an address (R33). -/
def State.imemPort (s : State) (addr : PcWord) : Option InstrWord := s.image.fetch addr.toNat

/-- `halted`: 1 when the status is `Halted` (R33). -/
def State.haltedPort (s : State) : Bool := decide (s.status = .halted)

/-- `fault_valid` (R33). -/
def State.faultValid (s : State) : Bool := s.fault.isSome

/-- `fault_code`, `fault_pc` and `fault_opnd`, while `fault_valid` is 1 (R33). -/
def State.faultPort (s : State) : Option (Nat × PcWord × Nat) :=
  s.fault.map fun r => (r.code.number, r.pc, r.opnd.number)

/-- `out_reg` and `out_value` of a record: a register index of 4 bits and a value (R33). -/
def OutRecord.port (o : OutRecord) : BitVec 4 × Word := (BitVec.ofNat 4 o.reg.index, o.value)

/-- `obs_reg[i]`, for i in 1..10 (R33). -/
def State.obsReg (s : State) (i : Nat) : Option Word := (RegName.ofNumber i).map s.regs.get

/-- `obs_flag` (R33). -/
def State.obsFlag (s : State) : Word := s.flag

/-- `obs_pc` (R33). -/
def State.obsPc (s : State) : PcWord := s.pc

end Sys2Proof.Machine
end

