-- ==== Sys2Proof/Safety.lean ====
section
/-! DEFINITION. What counts as a safe run, and the terms the claims are stated in. Nothing here is used by the machine. -/

namespace Sys2Proof.Machine

/-! ### The invariant of the machine -/

/-- The faults an instruction may raise, and the operand each blames (R190, R193 to R196). -/
def mayRaise (i : Instr) (code : FaultCode) (opnd : OperandPos) : Bool :=
  match i with
  | .mov _ _ | .add _ _ | .sub _ _ | .mul _ _ | .and _ _ | .or _ _ =>
    decide ((code, opnd) ∈ [(.invalidRegister, .first), (.invalidRegister, .second), (.malformedOperand, .second)])
  | .div _ _ =>
    decide ((code, opnd) ∈
      [(.invalidRegister, .first), (.invalidRegister, .second), (.malformedOperand, .second), (.divisionByZero, .second)])
  | .cmp _ _ =>
    decide ((code, opnd) ∈
      [(.invalidRegister, .first), (.malformedOperand, .first), (.invalidRegister, .second), (.malformedOperand, .second)])
  | .not _ | .inc _ | .dec _ | .print _ => decide ((code, opnd) = (.invalidRegister, .first))
  | .jmp _ | .je _ | .jg _ | .jl _ | .jge _ | .jle _ => decide ((code, opnd) = (.unknownLabel, .first))

/-- The fault record, if there is one, holds the `pc`, and the word at that address explains it: an UNKNOWN or MALFORMED
word its own fault, any other a fault its instruction may raise (R190, R199). -/
def State.faultExplained (s : State) : Bool :=
  match s.fault with
  | none => true
  | some r =>
    decide (r.pc = s.pc) &&
      match s.image.fetch s.pc.toNat with
      | none => false
      | some w =>
        match decode w with
        | .error e => decide ((r.code, r.opnd) = ((decodeFailure e).code, OperandPos.noOperand))
        | .ok i => mayRaise i r.code r.opnd

/-- The invariant every step keeps: the image is within its bounds (R6, R31), `pc` is in 0..LEN (R28), and a fault
record is explained by the instruction it stopped at (R199). -/
def State.Inv (s : State) : Prop :=
  s.image.wf = true ∧ s.pc.toNat ≤ s.image.len ∧ s.faultExplained = true

/-- A run from `s` ends normally (R117, R118). -/
def EndsNormally (s : State) : Prop :=
  ∃ k t, Sys2Proof.core.run k s = .next t ∧ t.endedNormally = true

end Sys2Proof.Machine

namespace Sys2Proof.Claims

open Sys2Proof.Machine

/-! ### Operands -/

/-- The operand names register `r`. -/
def Names (o : Operand) (r : RegName) : Prop := o = .reg r.index

/-- The operand can be evaluated in `s`, with value `v`: a literal, or one of the ten registers. -/
def Reads (s : State) (o : Operand) (v : Word) : Prop :=
  o = .imm v ∨ ∃ r, Names o r ∧ s.regs.get r = v

/-- The operand names none of the ten registers: a number outside 1..10, a literal or a symbol. -/
def NamesNoRegister (o : Operand) : Prop := ∀ r, ¬ Names o r

/-- The state with the fault record written and nothing else changed. -/
def faulted (s : State) (code : FaultCode) (opnd : OperandPos) : State :=
  { s with fault := some ⟨code, s.pc, opnd⟩ }

/-- The label of index `l` is declared, with address `t`. -/
def Resolves (s : State) (l : Nat) (t : PcWord) : Prop := s.image.labels[l]? = some (some t)

/-- The label of index `l` is not declared. -/
def Unresolved (s : State) (l : Nat) : Prop := ∀ t, ¬ Resolves s l t

/-- The instruction sets `pc` to `p` and does nothing else. -/
def JumpsTo (i : Instr) (s : State) (p : PcWord) : Prop := exec i s = .next { s with pc := p }

/-- The true difference of two values is a value of 32 bits (R8, R166). -/
def DifferenceFits (u v : Word) : Prop := -(2 ^ 31) ≤ u.toInt - v.toInt ∧ u.toInt - v.toInt ≤ 2 ^ 31 - 1

/-! ### The shared parts of the instruction rules -/

/-- Words of opcode number `opc` with two operands decode to `make` of them (R73 to R78). -/
def DecodesTwo (opc : BitVec 8) (make : Operand → Operand → Instr) : Prop :=
  ∀ w a b, opcField w = opc → rsvField w = 0 → operandOf (k1Field w) (aField w) = some a →
    operandOf (k2Field w) (bField w) = some b → decode w = .ok (make a b)

/-- Words of opcode number `opc` with one operand decode to `make` of it. -/
def DecodesOne (opc : BitVec 8) (make : Operand → Instr) : Prop :=
  ∀ w a, opcField w = opc → rsvField w = 0 → k2Field w = 0 → bField w = 0 →
    operandOf (k1Field w) (aField w) = some a → decode w = .ok (make a)

/-- The word `OO C0 iiiiiiii 00000000` of opcode number `opc` decodes to the jump to label i (R177). -/
def DecodesJump (opc : BitVec 8) (make : Nat → Instr) : Prop :=
  ∀ l : Word, decode (opc ++ (0xC0 : BitVec 8) ++ l ++ (0 : Word)) = .ok (make l.toNat)

/-- The faults of a two-operand instruction whose first operand is its destination (R114, R135): the destination is
checked first, whatever the source is; then a register number outside 1..10 or a symbol as source. -/
def DestinationFaults (make : Operand → Operand → Instr) : Prop :=
  (∀ s a b, NamesNoRegister a → exec (make a b) s = .next (faulted s .invalidRegister .first)) ∧
  (∀ s r n, ¬ (1 ≤ n ∧ n ≤ 10) →
    exec (make (.reg (RegName.index r)) (.reg n)) s = .next (faulted s .invalidRegister .second)) ∧
  (∀ s r i, exec (make (.reg (RegName.index r)) (.sym i)) s = .next (faulted s .malformedOperand .second))

/-- The template R135 of a two-operand instruction with result function `f`, its decoding, its result with its frame,
and its faults. -/
def TwoOperandRule (opc : BitVec 8) (make : Operand → Operand → Instr) (f : Word → Word → Word) : Prop :=
  DecodesTwo opc make ∧
  (∀ s r b v, Reads s b v →
    exec (make (.reg (RegName.index r)) b) s =
      .next { s with regs := s.regs.set r (f (s.regs.get r) v), pc := s.pc + 1 }) ∧
  DestinationFaults make

/-- The rule of an instruction that changes one register in place. -/
def OneOperandRule (opc : BitVec 8) (make : Operand → Instr) (f : Word → Word) : Prop :=
  DecodesOne opc make ∧
  (∀ s r, exec (make (.reg (RegName.index r))) s =
    .next { s with regs := s.regs.set r (f (s.regs.get r)), pc := s.pc + 1 }) ∧
  (∀ s a, NamesNoRegister a → exec (make a) s = .next (faulted s .invalidRegister .first))

/-- The template R177 of a conditional jump with predicate `cond`. -/
def ConditionalJumpRule (opc : BitVec 8) (make : Nat → Instr) (cond : Word → Prop) : Prop :=
  DecodesJump opc make ∧
  (∀ s l t, cond s.flag → Resolves s l t → exec (make l) s = .next { s with pc := t }) ∧
  (∀ s l, cond s.flag → Unresolved s l → exec (make l) s = .next (faulted s .unknownLabel .first)) ∧
  (∀ s l, ¬ cond s.flag → exec (make l) s = .next { s with pc := s.pc + 1 })

/-! ### What an instruction reads, writes and checks -/

/-- The registers an instruction reads (R23). -/
def readsReg (i : Instr) (r : RegName) : Prop :=
  match i with
  | .mov _ b => Names b r
  | .add a b | .sub a b | .mul a b | .div a b | .and a b | .or a b | .cmp a b => Names a r ∨ Names b r
  | .not a | .inc a | .dec a | .print a => Names a r
  | .jmp _ | .je _ | .jg _ | .jl _ | .jge _ | .jle _ => False

/-- The registers an instruction writes (R23). -/
def writesReg (i : Instr) (r : RegName) : Prop :=
  match i with
  | .mov a _ | .add a _ | .sub a _ | .mul a _ | .div a _ | .and a _ | .or a _ => Names a r
  | .not a | .inc a | .dec a => Names a r
  | .cmp _ _ | .print _ => False
  | .jmp _ | .je _ | .jg _ | .jl _ | .jge _ | .jle _ => False

/-- The five conditional jumps. -/
def isConditionalJump (i : Instr) : Bool :=
  match i with
  | .je _ | .jg _ | .jl _ | .jge _ | .jle _ => true
  | .mov _ _ | .add _ _ | .sub _ _ | .mul _ _ | .div _ _ | .and _ _ | .or _ _ | .cmp _ _ => false
  | .not _ | .inc _ | .dec _ | .print _ | .jmp _ => false

/-- The label a jump goes to if it is taken in a state with this flag (R116, R167). -/
def takenLabel (flag : Word) (i : Instr) : Option Nat :=
  match i with
  | .jmp l => some l
  | .je l => if flag.toInt = 0 then some l else none
  | .jg l => if flag.toInt > 0 then some l else none
  | .jl l => if flag.toInt < 0 then some l else none
  | .jge l => if flag.toInt ≥ 0 then some l else none
  | .jle l => if flag.toInt ≤ 0 then some l else none
  | .mov _ _ | .add _ _ | .sub _ _ | .mul _ _ | .div _ _ | .and _ _ | .or _ _ | .cmp _ _ => none
  | .not _ | .inc _ | .dec _ | .print _ => none

/-- The check of an operand used as a register by its position (R114). -/
def destCheck (a : Operand) : Option Failure :=
  match a with
  | .reg n => if 1 ≤ n ∧ n ≤ 10 then none else some ⟨.invalidRegister, .first⟩
  | .imm _ | .sym _ => some ⟨.invalidRegister, .first⟩

/-- The check of a source operand (R113). -/
def sourceCheck (o : Operand) (p : OperandPos) : Option Failure :=
  match o with
  | .reg n => if 1 ≤ n ∧ n ≤ 10 then none else some ⟨.invalidRegister, p⟩
  | .imm _ => none
  | .sym _ => some ⟨.malformedOperand, p⟩

/-- The value of a source operand that passes its check. -/
def sourceValue (s : State) (o : Operand) : Option Word :=
  match o with
  | .reg n => (RegName.ofNumber n).map s.regs.get
  | .imm v => some v
  | .sym _ => none

/-- The checks an instruction makes, in the order of R115, items 3 to 6: a failed check is its failure. -/
def checks (s : State) (i : Instr) : List (Option Failure) :=
  match i with
  | .mov a b | .add a b | .sub a b | .mul a b | .and a b | .or a b => [destCheck a, sourceCheck b .second]
  | .div a b =>
    [destCheck a, sourceCheck b .second,
     if sourceValue s b = some 0 then some ⟨.divisionByZero, .second⟩ else none]
  | .cmp a b => [sourceCheck a .first, sourceCheck b .second]
  | .not a | .inc a | .dec a | .print a => [destCheck a]
  | .jmp _ | .je _ | .jg _ | .jl _ | .jge _ | .jle _ =>
    match takenLabel s.flag i with
    | none => []
    | some l =>
      match s.image.labels[l]? with
      | some (some _) => [none]
      | _ => [some ⟨.unknownLabel, .first⟩]

/-- The first check that fails. -/
def firstFailure (cs : List (Option Failure)) : Option Failure := cs.findSome? id

/-- A line of program text that holds an instruction: not blank and not a label line (R82, R86). -/
def isInstructionLine (line : List Char) : Bool :=
  match trimLine line with
  | [] => false
  | c :: _ => decide (c ≠ ':')

end Sys2Proof.Claims
end

