-- ==== Sys2Proof/Certificates/Slice0/Obligations.lean ====
section
/-! DEFINITION. The statements for the provers: one `def Obligations.<Name> : Prop` each, listed in OBLIGATIONS.json. -/

open Sys2Proof Sys2Proof.Machine Sys2Proof.Claims

/-! ### Encoding -/

/-- Words of the spec, written out from its tables, decode to the instructions they stand for (95_test_vectors.md
parts 1 and 2). -/
def Obligations.SpecWordsDecode : Prop :=
  decode 0x01600000000100000005 = .ok (.mov (.reg 1) (.imm 5)) ∧
  decode 0x026000000001FFFFFFFF = .ok (.add (.reg 1) (.imm (-1))) ∧
  decode 0x08800000000500000000 = .ok (.not (.imm 5)) ∧
  decode 0x0A400000000100000000 = .ok (.dec (.reg 1)) ∧
  decode 0x0BD0000000000000000B = .ok (.cmp (.sym 0) (.reg 11)) ∧
  decode 0x0DC00000000100000000 = .ok (.je 1) ∧
  decode 0x12400000000A00000000 = .ok (.print (.reg 10)) ∧
  decode 0x13400000000100000000 = .error .unknownOpcode ∧
  decode 0x08400000000100000001 = .error .malformedInstruction

/-- No bit of an instruction is lost by encoding it (R73 to R78). -/
def Obligations.DecodeOfEncodeIsTheInstruction : Prop :=
  ∀ i : Instr, i.wellFormed = true → decode (encode i) = .ok i

/-- A word that decodes to an instruction is the one word of that instruction, and the instruction is well formed
(R73 to R78). -/
def Obligations.EncodeOfDecodeIsTheWord : Prop :=
  ∀ (w : InstrWord) (i : Instr), decode w = .ok i → encode i = w ∧ i.wellFormed = true

/-- The decoder's three cases in the order of R78: unknown opcode, then malformed word by the table of R77, then the
instruction with the opcode number and the operands of the word. -/
def Obligations.DecoderCasesInOrder : Prop :=
  ∀ w : InstrWord,
    (decode w = .error .unknownOpcode ↔ ¬ (1 ≤ (opcField w).toNat ∧ (opcField w).toNat ≤ 18)) ∧
    (decode w = .error .malformedInstruction ↔
      ∃ row ∈ opcodeTable, row.opc = opcField w ∧
        ¬ (rsvField w = 0 ∧
          match row.shape with
          | .two => k1Field w ≠ 0 ∧ k2Field w ≠ 0
          | .one => k1Field w ≠ 0 ∧ k2Field w = 0 ∧ bField w = 0
          | .jump => k1Field w = 3 ∧ k2Field w = 0 ∧ bField w = 0)) ∧
    (∀ i, decode w = .ok i →
      i.opcode = opcField w ∧ operandOf (k1Field w) (aField w) = some i.first ∧
        operandOf (k2Field w) (bField w) = i.second)

/-- A word is an instance of a row of the match-and-mask table exactly when it decodes to an instruction of that row's
opcode number (R89). -/
def Obligations.RowsMatchTheirInstructions : Prop :=
  ∀ (w : InstrWord) (row : OpcodeRow), row ∈ opcodeTable →
    (row.isInstance w = true ↔ ∃ i, decode w = .ok i ∧ i.opcode = row.opc)

/-- A program serialised to bytes, most significant byte first, is read back whole (R52). -/
def Obligations.SerialisedProgramReadsBack : Prop :=
  ∀ (ws : List InstrWord) (fuel : Nat), ws.length ≤ fuel →
    wordsOfBytes fuel (wordsToBytes ws) = some ws ∧ (wordsToBytes ws).length = 10 * ws.length

/-- The word of a well-formed instruction at the head of a byte stream decodes to it and leaves the rest; the first
byte is the opcode number (R52). -/
def Obligations.DecodeBytesOfEncodedInstruction : Prop :=
  ∀ (i : Instr) (rest : List Byte), i.wellFormed = true →
    decodeBytes (wordToBytes (encode i) ++ rest) = some (.ok i, rest) ∧
    (wordToBytes (encode i)).head? = some i.opcode

/-! ### Registers -/

/-- R21: a reference is valid exactly from 1 to 10, every access through another fails alike on read and write, and a
register token is read by its numeric value. -/
def Obligations.RegisterReferencesValidate : Prop :=
  (∀ n, (∃ r, RegName.ofNumber n = some r ∧ RegName.index r = n) ↔ 1 ≤ n ∧ n ≤ 10) ∧
  (∀ n p s v, ¬ (1 ≤ n ∧ n ≤ 10) →
    getReg n p s = .error ⟨.invalidRegister, p⟩ ∧ setReg n v p s = .error ⟨.invalidRegister, p⟩) ∧
  (∀ ds, isNumber ds = true → classify ('R' :: ds) = .reg (decimalValue ds))

/-- The register file's contract: get, set and set_from (R22), and the law that a write is read back and leaves every
other register alone (R24; its second half is the spec's own derivation). -/
def Obligations.RegisterFileContract : Prop :=
  (∀ s (r : RegName) p, getReg r.index p s = .ok (s.regs.get r)) ∧
  (∀ s (r : RegName) p v, setReg r.index v p s = .ok { s with regs := s.regs.set r v }) ∧
  (∀ s (r q : RegName), setRegFrom r.index q.index s = .ok { s with regs := s.regs.set r (s.regs.get q) }) ∧
  (∀ s n m, ¬ (1 ≤ n ∧ n ≤ 10 ∧ 1 ≤ m ∧ m ≤ 10) → ∃ e, setRegFrom n m s = .error e) ∧
  (∀ (f : RegFile) r v, (f.set r v).get r = v) ∧
  (∀ (f : RegFile) r q v, q ≠ r → (f.set r v).get q = f.get q)

/-! ### The 18 instructions -/

/-- R130. -/
def Obligations.MovRule : Prop := TwoOperandRule 0x01 .mov fun _ v => v

/-- R136: the sum over the integers, wrapped. -/
def Obligations.AddRule : Prop := TwoOperandRule 0x02 .add fun x v => BitVec.ofInt 32 (x.toInt + v.toInt)

/-- R137: the difference over the integers, wrapped. -/
def Obligations.SubRule : Prop := TwoOperandRule 0x03 .sub fun x v => BitVec.ofInt 32 (x.toInt - v.toInt)

/-- R138: the product over the integers, wrapped. -/
def Obligations.MulRule : Prop := TwoOperandRule 0x04 .mul fun x v => BitVec.ofInt 32 (x.toInt * v.toInt)

/-- R139: the quotient truncated toward zero and wrapped (decisions D4, D5); a zero divisor faults after both operands
validate. -/
def Obligations.DivRule : Prop :=
  DecodesTwo 0x05 .div ∧
  (∀ s (r : RegName) b v, Reads s b v → v ≠ 0 →
    exec (.div (.reg r.index) b) s =
      .next { s with
        regs := s.regs.set r (BitVec.ofInt 32 ((s.regs.get r).toInt.sign * v.toInt.sign *
          (((s.regs.get r).toInt.natAbs / v.toInt.natAbs : Nat) : Int)))
        pc := s.pc + 1 }) ∧
  (∀ s (r : RegName) b, Reads s b 0 → exec (.div (.reg r.index) b) s = .next (faulted s .divisionByZero .second)) ∧
  DestinationFaults .div

/-- R150: the pattern whose every bit is the conjunction of the operands' bits. -/
def Obligations.AndRule : Prop := TwoOperandRule 0x06 .and fun x v => x &&& v

/-- R151: the pattern whose every bit is the disjunction of the operands' bits. -/
def Obligations.OrRule : Prop := TwoOperandRule 0x07 .or fun x v => x ||| v

/-- R152: every bit inverted, which is −x − 1. -/
def Obligations.NotRule : Prop :=
  OneOperandRule 0x08 .not (fun x => ~~~x) ∧ ∀ x : Word, (~~~x).toInt = -x.toInt - 1

/-- R160. -/
def Obligations.IncRule : Prop := OneOperandRule 0x09 .inc fun x => BitVec.ofInt 32 (x.toInt + 1)

/-- R161. -/
def Obligations.DecRule : Prop := OneOperandRule 0x0A .dec fun x => BitVec.ofInt 32 (x.toInt - 1)

/-- R165: both operands are sources; the wrapped difference goes to the flag, nothing but `pc` changes beside it; the
first operand's faults come before the second's. -/
def Obligations.CmpRule : Prop :=
  DecodesTwo 0x0B .cmp ∧
  (∀ s a b u v, Reads s a u → Reads s b v →
    exec (.cmp a b) s = .next { s with flag := BitVec.ofInt 32 (u.toInt - v.toInt), pc := s.pc + 1 }) ∧
  (∀ s n b, ¬ (1 ≤ n ∧ n ≤ 10) → exec (.cmp (.reg n) b) s = .next (faulted s .invalidRegister .first)) ∧
  (∀ s i b, exec (.cmp (.sym i) b) s = .next (faulted s .malformedOperand .first)) ∧
  (∀ s a u n, Reads s a u → ¬ (1 ≤ n ∧ n ≤ 10) →
    exec (.cmp a (.reg n)) s = .next (faulted s .invalidRegister .second)) ∧
  (∀ s a u i, Reads s a u → exec (.cmp a (.sym i)) s = .next (faulted s .malformedOperand .second))

/-- R171. -/
def Obligations.JmpRule : Prop :=
  DecodesJump 0x0C .jmp ∧
  (∀ s l t, Resolves s l t → exec (.jmp l) s = .next { s with pc := t }) ∧
  (∀ s l, Unresolved s l → exec (.jmp l) s = .next (faulted s .unknownLabel .first))

/-- R172. -/
def Obligations.JeRule : Prop := ConditionalJumpRule 0x0D .je fun f => f.toInt = 0

/-- R173. -/
def Obligations.JgRule : Prop := ConditionalJumpRule 0x0E .jg fun f => f.toInt > 0

/-- R174. -/
def Obligations.JlRule : Prop := ConditionalJumpRule 0x0F .jl fun f => f.toInt < 0

/-- R175. -/
def Obligations.JgeRule : Prop := ConditionalJumpRule 0x10 .jge fun f => f.toInt ≥ 0

/-- R176. -/
def Obligations.JleRule : Prop := ConditionalJumpRule 0x11 .jle fun f => f.toInt ≤ 0

/-- R185: the record (register, value) is appended to the output stream and nothing but `pc` changes beside it. -/
def Obligations.PrintRule : Prop :=
  DecodesOne 0x12 .print ∧
  (∀ s (r : RegName),
    exec (.print (.reg r.index)) s =
      .next { s with output := s.output ++ [⟨r, s.regs.get r⟩], pc := s.pc + 1 }) ∧
  (∀ s a, NamesNoRegister a → exec (.print a) s = .next (faulted s .invalidRegister .first))

/-! ### Arithmetic laws -/

/-- R142: the result is the pattern of the same operation modulo 2^32, its signed value is the wrapped mathematical
result, and nothing but the destination and `pc` changes: no overflow is signalled, and a zero divisor is the only
arithmetic fault. -/
def Obligations.ArithmeticWrapsModuloTwoToXlen : Prop :=
  ∀ s (r : RegName) b v, Reads s b v →
    (∃ w, exec (.add (.reg r.index) b) s = .next { s with regs := s.regs.set r w, pc := s.pc + 1 } ∧
      w = s.regs.get r + v ∧ w.toInt = ((s.regs.get r).toInt + v.toInt).bmod (2 ^ 32)) ∧
    (∃ w, exec (.sub (.reg r.index) b) s = .next { s with regs := s.regs.set r w, pc := s.pc + 1 } ∧
      w = s.regs.get r - v ∧ w.toInt = ((s.regs.get r).toInt - v.toInt).bmod (2 ^ 32)) ∧
    (∃ w, exec (.mul (.reg r.index) b) s = .next { s with regs := s.regs.set r w, pc := s.pc + 1 } ∧
      w = s.regs.get r * v ∧ w.toInt = ((s.regs.get r).toInt * v.toInt).bmod (2 ^ 32)) ∧
    (∃ w, exec (.inc (.reg r.index)) s = .next { s with regs := s.regs.set r w, pc := s.pc + 1 } ∧
      w = s.regs.get r + 1 ∧ w.toInt = ((s.regs.get r).toInt + 1).bmod (2 ^ 32)) ∧
    (∃ w, exec (.dec (.reg r.index)) s = .next { s with regs := s.regs.set r w, pc := s.pc + 1 } ∧
      w = s.regs.get r - 1 ∧ w.toInt = ((s.regs.get r).toInt - 1).bmod (2 ^ 32)) ∧
    (∃ w, exec (.cmp (.reg r.index) b) s = .next { s with flag := w, pc := s.pc + 1 } ∧
      w = s.regs.get r - v ∧ w.toInt = ((s.regs.get r).toInt - v.toInt).bmod (2 ^ 32)) ∧
    (v ≠ 0 → ∃ w, exec (.div (.reg r.index) b) s = .next { s with regs := s.regs.set r w, pc := s.pc + 1 })

/-- R153: AND, OR and NOT act bit by bit on the patterns, negative values included; a literal −1 leaves a value under
AND, gives −1 under OR, and NOT x is −x − 1. -/
def Obligations.BitwiseActsOnPatterns : Prop :=
  ∀ s (r : RegName) b v, Reads s b v →
    (∃ w, exec (.and (.reg r.index) b) s = .next { s with regs := s.regs.set r w, pc := s.pc + 1 } ∧
      (∀ k, k < 32 → w.getLsbD k = ((s.regs.get r).getLsbD k && v.getLsbD k)) ∧ (v.toInt = -1 → w = s.regs.get r)) ∧
    (∃ w, exec (.or (.reg r.index) b) s = .next { s with regs := s.regs.set r w, pc := s.pc + 1 } ∧
      (∀ k, k < 32 → w.getLsbD k = ((s.regs.get r).getLsbD k || v.getLsbD k)) ∧ (v.toInt = -1 → w.toInt = -1)) ∧
    (∃ w, exec (.not (.reg r.index)) s = .next { s with regs := s.regs.set r w, pc := s.pc + 1 } ∧
      (∀ k, k < 32 → w.getLsbD k = !(s.regs.get r).getLsbD k) ∧ w.toInt = -(s.regs.get r).toInt - 1)

/-- The quotient of DIV is the truncated one: x = q·v + r with |r| < |v| and r of the sign of x or 0; the one overflow,
INT_MIN ÷ −1, gives INT_MIN (the table of 42_arithmetic.md section 2, the spec's own derivation). -/
def Obligations.DivisionIdentity : Prop :=
  ∀ s (r : RegName) b v, Reads s b v → v ≠ 0 →
    ∃ q, exec (.div (.reg r.index) b) s = .next { s with regs := s.regs.set r q, pc := s.pc + 1 } ∧
      (s.regs.get r = BitVec.intMin 32 ∧ v.toInt = -1 → q = BitVec.intMin 32) ∧
      (¬ (s.regs.get r = BitVec.intMin 32 ∧ v.toInt = -1) →
        ∃ rem : Int, (s.regs.get r).toInt = q.toInt * v.toInt + rem ∧ rem.natAbs < v.toInt.natAbs ∧
          (rem = 0 ∨ rem.sign = (s.regs.get r).toInt.sign))

/-- INC and DEC have the result, the faults and the frame of ADD and SUB with the literal 1 (44_inc_dec.md); so on any
register, wraparound included, one after the other undoes it and only `pc` has moved. -/
def Obligations.IncDecAreAddSubOfOne : Prop :=
  (∀ a s, exec (.inc a) s = exec (.add a (.imm 1)) s ∧ exec (.dec a) s = exec (.sub a (.imm 1)) s) ∧
  (∀ s (r : RegName), ∃ t u, exec (.inc (.reg r.index)) s = .next t ∧ exec (.dec (.reg r.index)) t = .next u ∧
    u = { s with pc := s.pc + 2 }) ∧
  (∀ s (r : RegName), ∃ t u, exec (.dec (.reg r.index)) s = .next t ∧ exec (.inc (.reg r.index)) t = .next u ∧
    u = { s with pc := s.pc + 2 })

/-- R166: after CMP the flag is the wrapped difference; it is 0, and JE jumps, exactly for equal values; JG, JL, JGE and
JLE agree with the true order exactly when the true difference fits in 32 bits, and follow the opposite order when it
does not. (A label at the next address is left out: there a taken jump and one not taken do the same.) -/
def Obligations.CompareOverflowCorner : Prop :=
  ∀ s a b u v, Reads s a u → Reads s b v →
    ∃ t, exec (.cmp a b) s = .next t ∧
      t.flag = BitVec.ofInt 32 (u.toInt - v.toInt) ∧ (t.flag = 0 ↔ u = v) ∧
      ∀ l p, Resolves t l p → p ≠ t.pc + 1 →
        (JumpsTo (.je l) t p ↔ u = v) ∧
        ((JumpsTo (.jg l) t p ↔ u.toInt > v.toInt) ↔ DifferenceFits u v) ∧
        ((JumpsTo (.jl l) t p ↔ u.toInt < v.toInt) ↔ DifferenceFits u v) ∧
        ((JumpsTo (.jge l) t p ↔ u.toInt ≥ v.toInt) ↔ DifferenceFits u v) ∧
        ((JumpsTo (.jle l) t p ↔ u.toInt ≤ v.toInt) ↔ DifferenceFits u v) ∧
        (¬ DifferenceFits u v →
          (u.toInt < v.toInt → JumpsTo (.jg l) t p ∧ JumpsTo (.jge l) t p) ∧
          (u.toInt > v.toInt → JumpsTo (.jl l) t p ∧ JumpsTo (.jle l) t p))

/-! ### Control flow -/

/-- R170: resolution reads the label table alone: the address of a declared label, nothing for an undeclared index or
one at NLAB or above; a resolved address is in 0..LEN on a well-formed image. -/
def Obligations.LabelResolution : Prop :=
  ∀ (im : Image) (i : Nat),
    (∀ t, im.resolve i = some t ↔ im.labels[i]? = some (some t)) ∧
    (im.nlab ≤ i → im.resolve i = none) ∧
    (im.wf = true → ∀ t, im.resolve i = some t → t.toNat ≤ im.len)

/-- R181: which of the six jumps fire for a negative, a zero and a positive flag. -/
def Obligations.JumpOutcomeTable : Prop :=
  ∀ s l t, Resolves s l t →
    (s.flag.toInt < 0 →
      exec (.jmp l) s = .next { s with pc := t } ∧ exec (.je l) s = .next { s with pc := s.pc + 1 } ∧
      exec (.jg l) s = .next { s with pc := s.pc + 1 } ∧ exec (.jl l) s = .next { s with pc := t } ∧
      exec (.jge l) s = .next { s with pc := s.pc + 1 } ∧ exec (.jle l) s = .next { s with pc := t }) ∧
    (s.flag.toInt = 0 →
      exec (.jmp l) s = .next { s with pc := t } ∧ exec (.je l) s = .next { s with pc := t } ∧
      exec (.jg l) s = .next { s with pc := s.pc + 1 } ∧ exec (.jl l) s = .next { s with pc := s.pc + 1 } ∧
      exec (.jge l) s = .next { s with pc := t } ∧ exec (.jle l) s = .next { s with pc := t }) ∧
    (s.flag.toInt > 0 →
      exec (.jmp l) s = .next { s with pc := t } ∧ exec (.je l) s = .next { s with pc := s.pc + 1 } ∧
      exec (.jg l) s = .next { s with pc := t } ∧ exec (.jl l) s = .next { s with pc := s.pc + 1 } ∧
      exec (.jge l) s = .next { s with pc := t } ∧ exec (.jle l) s = .next { s with pc := s.pc + 1 })

/-- R178: the policy is `fault`: a taken jump to an unresolved label faults and changes nothing else; under `skip` it
would only advance; on every other jump the two policies agree. -/
def Obligations.UnresolvedLabelPolicies : Prop :=
  Config.unknownLabelPolicy = .fault ∧
  (∀ s i l, takenLabel s.flag i = some l → Unresolved s l →
    exec i s = .next (faulted s .unknownLabel .first) ∧
    branch .skip true l s = .next { s with pc := s.pc + 1 }) ∧
  (∀ s taken l, ¬ (taken = true ∧ Unresolved s l) → branch .skip taken l s = branch .fault taken l s)

/-- A taken jump to its own address changes nothing, one to the next address acts as a jump that is not taken, and
from a Running core one to a label at LEN ends the run normally (46_jumps.md section 1, the spec's own derivation). -/
def Obligations.JumpTargetProperties : Prop :=
  (∀ s i l, takenLabel s.flag i = some l → Resolves s l s.pc → exec i s = .next s) ∧
  (∀ s i l, takenLabel s.flag i = some l → Resolves s l (s.pc + 1) → exec i s = .next { s with pc := s.pc + 1 }) ∧
  (∀ s w i l t, s.fault = none → s.image.imem[s.pc.toNat]? = some w → decode w = .ok i →
    takenLabel s.flag i = some l → Resolves s l t → t.toNat = s.image.len → EndsNormally s)

/-- R116: after a fault `pc` still addresses the faulting instruction; a taken jump sets it to the label's address, with
no further increment; every other instruction adds one, and on an image within its bounds that never wraps. -/
def Obligations.PcUpdate : Prop :=
  ∀ s t, s.fault = none → step s = .next t →
    (t.fault ≠ none → t.pc = s.pc) ∧
    (t.fault = none →
      ∃ w i, s.image.imem[s.pc.toNat]? = some w ∧ decode w = .ok i ∧
        match takenLabel s.flag i with
        | some l => Resolves s l t.pc
        | none => t.pc = s.pc + 1 ∧ (s.image.wf = true → t.pc.toNat = s.pc.toNat + 1))

/-! ### The step, its faults, the status -/

/-- The word at `pc` that decodes to an instruction is executed, and nothing is added around it: in particular a
well-formed instruction whose encoding stands at `pc` (R110, R112). -/
def Obligations.StepRunsTheDecodedInstruction : Prop :=
  (∀ s w i, s.fault = none → s.image.imem[s.pc.toNat]? = some w → decode w = .ok i → step s = exec i s) ∧
  (∀ s i, s.fault = none → i.wellFormed = true → s.image.imem[s.pc.toNat]? = some (encode i) → step s = exec i s)

/-- A word placed where the next instruction is fetched is run by the very next step. The placing is the model's own
(log entry 4), standing for the host's load. -/
def Obligations.PlacedWordRunsNext : Prop :=
  ∀ (s : State) (nbits w : Nat) (i : Instr), decodeTableWord nbits w = some i →
    step (s.withFetchWord nbits w) = exec i (s.withFetchWord nbits w)

/-- R112: an unknown opcode and a malformed word take their faults, blaming no operand; any other word is executed. -/
def Obligations.FetchAndDecode : Prop :=
  ∀ s w, s.fault = none → s.image.imem[s.pc.toNat]? = some w →
    (decode w = .error .unknownOpcode → step s = .next (faulted s .unknownOpcode .noOperand)) ∧
    (decode w = .error .malformedInstruction → step s = .next (faulted s .malformedInstruction .noOperand)) ∧
    (∀ i, decode w = .ok i → step s = exec i s)

/-- R115: the checks are made in order and the first that fails gives the one fault reported; if none fails the
instruction completes without a fault. -/
def Obligations.FirstFailingCheckIsReported : Prop :=
  ∀ s w, s.fault = none → s.image.imem[s.pc.toNat]? = some w →
    (decode w = .error .unknownOpcode → step s = .next (faulted s .unknownOpcode .noOperand)) ∧
    (decode w = .error .malformedInstruction → step s = .next (faulted s .malformedInstruction .noOperand)) ∧
    (∀ i e, decode w = .ok i → firstFailure (checks s i) = some e → step s = .next (faulted s e.code e.opnd)) ∧
    (∀ i, decode w = .ok i → firstFailure (checks s i) = none → ∃ t, step s = .next t ∧ t.fault = none)

/-- R199: raising a fault writes the record with its code, the `pc` and its operand and changes nothing else; every step
that faults ends so, and is the last. -/
def Obligations.FaultEntryWritesOnlyTheRecord : Prop :=
  (∀ s code opnd, raise ⟨code, opnd⟩ s = .next { s with fault := some ⟨code, s.pc, opnd⟩ }) ∧
  (∀ s t, step s = .next t → t.fault ≠ none →
    (∃ e, step s = raise e s ∧ t.fault = some ⟨e.code, s.pc, e.opnd⟩) ∧ t.status = .faulted ∧ ∀ u, step t ≠ .next u)

/-- R32: the status is a function of the fault record, `pc` and LEN; only a Running core has a step; Halted, and never
Faulted, is the normal end. -/
def Obligations.OnlyARunningCoreHasAStep : Prop :=
  ∀ s : State,
    (s.status = .faulted ↔ s.fault ≠ none) ∧
    (s.status = .halted ↔ s.fault = none ∧ s.image.len ≤ s.pc.toNat) ∧
    (s.status = .running ↔ s.fault = none ∧ s.pc.toNat < s.image.len) ∧
    ((∃ t, step s = .next t) ↔ s.status = .running) ∧
    (s.endedNormally = true ↔ s.status = .halted)

/-- What a core without a step answers the host: the names `halted` and `faulted` are the model's own (log entry 1). -/
def Obligations.StoppedCoreNamesItsStatus : Prop :=
  ∀ s : State,
    (s.status = .halted → step s = .fault .halted) ∧ (∀ r, s.fault = some r → step s = .fault (.faulted r))

/-- Every instruction ends in a next state from every state: none stops, none is refused (70_reset_and_hazards.md
section 4, progress). -/
def Obligations.EveryInstructionEndsInANextState : Prop :=
  ∀ (i : Instr) (s : State), ∃ t, exec i s = .next t ∧
    (t.fault = s.fault ∨ ∃ code opnd, mayRaise i code opnd = true ∧ t = { s with fault := some ⟨code, s.pc, opnd⟩ })

/-- A run that stops stops as Halted or Faulted, after any number of steps, and is never refused
(40_execution_cycle.md section 4). -/
def Obligations.RunsStopHaltedOrFaulted : Prop :=
  ∀ (s : State) (k : Nat), (∃ t, Sys2Proof.core.run k s = .next t) ∨
    ∃ j t, j < k ∧ Sys2Proof.core.run j s = .next t ∧ (t.status = .halted ∨ t.status = .faulted)

/-! ### Frames of the whole machine -/

/-- R26: CMP alone writes the flag, the five conditional jumps alone read it, a fault leaves it, reset makes it 0. -/
def Obligations.FlagWrittenByCmpReadByConditionalJumps : Prop :=
  (∀ i s t, exec i s = .next t → t.flag ≠ s.flag → ∃ a b, i = .cmp a b) ∧
  (∀ i s t f, isConditionalJump i = false → exec i s = .next t →
    ∃ u, exec i { s with flag := f } = .next u ∧ { u with flag := t.flag } = t ∧
      (u.flag = t.flag ∨ u.flag = f ∧ t.flag = s.flag)) ∧
  (∀ s t, step s = .next t → t.fault ≠ none → t.flag = s.flag) ∧
  State.reset.flag = 0

/-- R23: a register an instruction does not write keeps its value, and the outcome depends on no register but those it
reads: with the others changed, the same fault or the same effect follows. -/
def Obligations.RegistersReadAndWritten : Prop :=
  (∀ i s t r, exec i s = .next t → ¬ writesReg i r → t.regs.get r = s.regs.get r) ∧
  (∀ i s t f, (∀ r, readsReg i r → f.get r = s.regs.get r) → exec i s = .next t →
    ∃ u, exec i { s with regs := f } = .next u ∧ { u with regs := t.regs } = t ∧
      ((∀ r, writesReg i r → u.regs.get r = t.regs.get r) ∨ u.regs = f ∧ t.regs = s.regs))

/-- No instruction and no step changes the program image (20_memory.md section 4). -/
def Obligations.ImageNeverChanges : Prop :=
  (∀ i s t, exec i s = .next t → t.image = s.image) ∧ (∀ s t, step s = .next t → t.image = s.image)

/-- The output stream only grows: by one record at its end for a PRINT that does not fault, and by nothing else
(20_memory.md section 4 and 47_print.md). -/
def Obligations.OutputGrowsByPrintAlone : Prop :=
  ∀ s t, step s = .next t →
    t.output = s.output ∨
    ∃ (w : InstrWord) (r : RegName), s.image.imem[s.pc.toNat]? = some w ∧ decode w = .ok (.print (.reg r.index)) ∧
      t.output = s.output ++ [⟨r, s.regs.get r⟩]

/-- No instruction reads the output stream: with another stream the same effect follows (10_state.md section 6). -/
def Obligations.OutputIsNeverRead : Prop :=
  ∀ i s t (o : List OutRecord), exec i s = .next t →
    ∃ added, t.output = s.output ++ added ∧ exec i { s with output := o } = .next { t with output := o ++ added }

/-! ### Reset and invariant -/

/-- R220: what reset leaves, from every state; the image is not changed; the core is then Running if LEN > 0 and Halted
if LEN = 0. -/
def Obligations.ResetLeaves : Prop :=
  ∀ s : State,
    (∀ r, s.applyReset.regs.get r = 0) ∧ s.applyReset.flag = 0 ∧ s.applyReset.pc = 0 ∧ s.applyReset.fault = none ∧
    s.applyReset.output = [] ∧ s.applyReset.image = s.image ∧
    (0 < s.image.len → s.applyReset.status = .running) ∧ (s.image.len = 0 → s.applyReset.status = .halted) ∧
    State.reset.applyReset = State.reset

/-- A core that is Halted or Faulted stays so for any number of steps, and reset makes it Running again if it has a
program (70_reset_and_hazards.md section 1). -/
def Obligations.OnlyResetLeavesHaltedAndFaulted : Prop :=
  ∀ s : State, s.status ≠ .running →
    (∀ k t, Sys2Proof.core.run (k + 1) s ≠ .next t) ∧ (0 < s.image.len → s.applyReset.status = .running)

/-- The invariant holds after reset with any well-formed image loaded, and with none. -/
def Obligations.InvariantHoldsAtReset : Prop :=
  State.reset.Inv ∧ ∀ im : Image, im.wf = true → (State.boot im).Inv

/-- Every step keeps the invariant: image within bounds, `pc` in 0..LEN, a fault record explained by the instruction it
stopped at. -/
def Obligations.StepKeepsInvariant : Prop :=
  ∀ s t : State, s.Inv → step s = .next t → t.Inv

/-- From reset with any well-formed image, after any number of steps: the image is the one loaded, `pc` is in 0..LEN
(the spec's own derivation in 10_state.md section 4), so an ended run that is not Faulted has `pc` = LEN. -/
def Obligations.RunsStayWithinTheProgram : Prop :=
  ∀ (im : Image) (k : Nat) (t : State), im.wf = true → Sys2Proof.core.run k (State.boot im) = .next t →
    t.image = im ∧ t.Inv ∧ (t.endedNormally = true → t.pc.toNat = im.len)

/-! ### Assembler and output text -/

/-- The assembled words of spec examples (95_test_vectors.md section 2.9). -/
def Obligations.AssemblerExamples : Prop :=
  assemble "  ADD   R1 ,  5  ".toList = .ok ⟨[0x02600000000100000005], []⟩ ∧
  assemble "MOV R01, 5".toList = .ok ⟨[0x01600000000100000005], []⟩ ∧
  assemble "MOV R1, 5abc".toList = .ok ⟨[0x01700000000100000000], []⟩ ∧
  assemble "add R1, 5".toList = .ok ⟨[0xFF600000000100000005], []⟩ ∧
  assemble "NOT R1, R2".toList = .error (.malformedInstruction "NOT R1, R2".toList) ∧
  assemble ":L\n:L".toList = .error (.duplicateLabel "L".toList) ∧
  assemble ":L DEC R1".toList = .error (.malformedInstruction ":L DEC R1".toList) ∧
  assemble "JMP L\nADD R1, 1\n:L\nADD R1, 2".toList =
    .ok ⟨[0x0CC00000000000000000, 0x02600000000100000001, 0x02600000000100000002], [some 2]⟩

/-- An image the assembler produces is within its bounds, and none of its words is MALFORMED (30_encoding.md
sections 2 and 4). That a text too large for the bounds is refused is the model's own (log entry 11). -/
def Obligations.AssembledImagesAreWellFormed : Prop :=
  ∀ (text : List Char) (im : Image), assemble text = .ok im →
    im.wf = true ∧ ∀ w ∈ im.imem, decode w ≠ .error .malformedInstruction

/-- LEN of an assembled program is the number of its instruction lines; label lines and blank lines take no address
(30_encoding.md section 4). -/
def Obligations.AddressesCountInstructionLines : Prop :=
  ∀ (text : List Char) (im : Image), assemble text = .ok im →
    im.len = ((textLines text).filter isInstructionLine).length

/-- The line of an output record is `name : value`, its name reads back as the register, its value reads back as the
same number, and the number has no leading zero (47_print.md). -/
def Obligations.PrintedLineReadsBack : Prop :=
  ∀ (r : RegName) (v : Word), ∃ name value : List Char,
    (OutRecord.mk r v).line = name ++ [' ', ':', ' '] ++ value ∧
    classify name = .reg r.index ∧ classify value = .imm v ∧
    (∃ digits, (value = digits ∨ value = '-' :: digits) ∧ isNumber digits = true ∧
      (digits = ['0'] ∨ digits.head? ≠ some '0'))
end

