-- ==== Sys2Proof/Laws/Assembler.lean ====
section
/-! SUPPORT. What the loader and the assembler can answer. -/

namespace Sys2Proof.Machine

/-- A successful assembly: the lines load to a program within the bounds, and the image is that program's. -/
theorem assemble_ok {text : List Char} {im : Image} (h : assemble text = .ok im) :
    ∃ p, loadLines ⟨[], []⟩ (textLines text) = .ok p ∧ p.lines.length ≤ Config.maxLen ∧
      p.names.length ≤ Config.maxLabels ∧ im = p.image := by
  unfold assemble at h
  split at h
  · cases h
  · rename_i p hp
    split at h
    · rename_i hb
      injection h with h
      exact ⟨p, hp, hb.1, hb.2, h.symm⟩
    · cases h

/-- What a line that loads adds: nothing, one label with the next address, or one instruction with an operand count its
mnemonic may have. -/
theorem loadLine_cases {p q : Program} {raw : List Char} (h : loadLine p raw = .ok q) :
    (trimLine raw = [] ∧ q = p) ∨
    (∃ name, trimLine raw = ':' :: name ∧ q = { p with labels := p.labels ++ [(name, p.lines.length)] }) ∨
    (∃ c cs m operands, trimLine raw = c :: cs ∧ c ≠ ':' ∧ operandCountOk m operands.length = true ∧
      q = { p with lines := p.lines ++ [(m, operands)] }) := by
  unfold loadLine at h
  split at h <;> rename_i heq
  · cases h
    exact .inl ⟨heq, rfl⟩
  · split at h
    · cases h
    · split at h
      · cases h
      · cases h
        exact .inr (.inl ⟨_, heq, rfl⟩)
  · rename_i c cs hc
    split at h
    · cases h
    · split at h
      · rename_i ho
        cases h
        exact .inr (.inr ⟨c, cs, _, _, heq, fun e => hc e, ho, rfl⟩)
      · cases h

/-- A property every line keeps holds of the loaded program. -/
theorem loadLines_keeps {P : Program → Prop} (keep : ∀ p q raw, P p → loadLine p raw = .ok q → P q)
    {ls : List (List Char)} : ∀ {p q : Program}, loadLines p ls = .ok q → P p → P q := by
  induction ls with
  | nil => intro p q h hp; cases h; exact hp
  | cons l ls ih =>
    intro p q h hp
    simp only [loadLines] at h
    split at h
    · rename_i hq
      exact ih h (keep _ _ _ hp hq)
    · cases h

/-- Adding references never removes a name. -/
theorem addReferences_length (ts : List Token) : ∀ known : List Token,
    known.length ≤ (addReferences known ts).length := by
  induction ts with
  | nil => intro known; simp [addReferences]
  | cons t ts ih =>
    intro known
    simp only [addReferences]
    split
    · exact ih known
    · have := ih (known ++ [t])
      simp at this
      omega

end Sys2Proof.Machine
end

