-- ==== Sys2Proof/Laws/Decode.lean ====
section
/-! SUPPORT. The fields of a packed word, a word from its fields, operands from kind code and payload, and serialised
words. -/

namespace Sys2Proof

section Fields

variable (opc : BitVec 8) (k1 k2 : BitVec 2) (rsv : BitVec 4) (a b : Word)

@[simp] theorem opcField_packWord : opcField (packWord opc k1 k2 rsv a b) = opc := by
  unfold opcField packWord
  ext i hi
  simp
  grind

@[simp] theorem k1Field_packWord : k1Field (packWord opc k1 k2 rsv a b) = k1 := by
  unfold k1Field packWord
  ext i hi
  simp
  grind

@[simp] theorem k2Field_packWord : k2Field (packWord opc k1 k2 rsv a b) = k2 := by
  unfold k2Field packWord
  ext i hi
  simp
  grind

@[simp] theorem rsvField_packWord : rsvField (packWord opc k1 k2 rsv a b) = rsv := by
  unfold rsvField packWord
  ext i hi
  simp
  grind

@[simp] theorem aField_packWord : aField (packWord opc k1 k2 rsv a b) = a := by
  unfold aField packWord
  ext i hi
  simp
  grind

@[simp] theorem bField_packWord : bField (packWord opc k1 k2 rsv a b) = b := by
  unfold bField packWord
  ext i hi
  simp
  grind

end Fields

/-- A word is the packing of its own fields. -/
theorem packWord_fields (w : InstrWord) :
    packWord (opcField w) (k1Field w) (k2Field w) (rsvField w) (aField w) (bField w) = w := by
  unfold opcField k1Field k2Field rsvField aField bField packWord
  ext i hi
  simp
  grind

/-- Conjunction acts field by field: how a mask cuts a word (R89). -/
theorem and_packWord (opc opc' : BitVec 8) (k1 k1' k2 k2' : BitVec 2) (rsv rsv' : BitVec 4) (a a' b b' : Word) :
    packWord opc k1 k2 rsv a b &&& packWord opc' k1' k2' rsv' a' b' =
      packWord (opc &&& opc') (k1 &&& k1') (k2 &&& k2') (rsv &&& rsv') (a &&& a') (b &&& b') := by
  unfold packWord
  ext i hi
  simp
  grind

/-- Two words with the same fields are the same word. -/
theorem word_eq_of_fields {v w : InstrWord} (h1 : opcField v = opcField w) (h2 : k1Field v = k1Field w)
    (h3 : k2Field v = k2Field w) (h4 : rsvField v = rsvField w) (h5 : aField v = aField w)
    (h6 : bField v = bField w) : v = w := by
  rw [← packWord_fields v, ← packWord_fields w, h1, h2, h3, h4, h5, h6]

/-! ### Operands -/

theorem operandOf_kindCode_payload {o : Operand} (h : o.wellFormed = true) :
    operandOf o.kindCode o.payload = some o := by
  cases o with
  | reg n =>
    have hn : n < 2 ^ 32 := by simpa [Operand.wellFormed] using h
    simp only [operandOf, Operand.kindCode, Operand.payload, if_pos hn, if_true, BitVec.toNat_ofNat]
    rw [Nat.mod_eq_of_lt hn]
  | imm v => simp [operandOf, Operand.kindCode, Operand.payload]
  | sym i =>
    have hn : i < 2 ^ 32 := by simpa [Operand.wellFormed] using h
    simp [operandOf, Operand.kindCode, Operand.payload]
    omega

/-- The operand of a kind code and a payload has that kind code and payload, and is well formed. -/
theorem operandOf_eq_some {k : BitVec 2} {p : Word} {o : Operand} (h : operandOf k p = some o) :
    o.kindCode = k ∧ o.payload = p ∧ o.wellFormed = true := by
  unfold operandOf at h
  have hp : p.toNat < 2 ^ 32 := p.isLt
  split at h
  · cases h; simp_all [Operand.kindCode, Operand.payload, Operand.wellFormed]
  · split at h
    · cases h; simp_all [Operand.kindCode, Operand.payload, Operand.wellFormed]
    · split at h
      · cases h; simp_all [Operand.kindCode, Operand.payload, Operand.wellFormed]
      · cases h

theorem operandOf_eq_none {k : BitVec 2} {p : Word} : operandOf k p = none ↔ k = 0 := by
  unfold operandOf
  have : k = 0 ∨ k = 1 ∨ k = 2 ∨ k = 3 := by revert k; decide
  rcases this with h | h | h | h <;> simp [h]

theorem kindCode_ne_zero (o : Operand) : o.kindCode ≠ 0 := by cases o <;> simp [Operand.kindCode]

/-! ### The classes of the decoder (R77) -/

theorem decodeTwo_eq_ok {make : Operand → Operand → Instr} {w : InstrWord} {i : Instr} :
    decodeTwo make w = .ok i ↔
      ∃ a b, rsvField w = 0 ∧ operandOf (k1Field w) (aField w) = some a ∧
        operandOf (k2Field w) (bField w) = some b ∧ make a b = i := by
  unfold decodeTwo
  split
  · split <;> simp_all
  · simp_all

theorem decodeOne_eq_ok {make : Operand → Instr} {w : InstrWord} {i : Instr} :
    decodeOne make w = .ok i ↔
      ∃ a, rsvField w = 0 ∧ k2Field w = 0 ∧ bField w = 0 ∧ operandOf (k1Field w) (aField w) = some a ∧
        make a = i := by
  unfold decodeOne
  split
  · split <;> simp_all
  · simp_all

theorem decodeJump_eq_ok {make : Nat → Instr} {w : InstrWord} {i : Instr} :
    decodeJump make w = .ok i ↔
      rsvField w = 0 ∧ k1Field w = 3 ∧ k2Field w = 0 ∧ bField w = 0 ∧ make (aField w).toNat = i := by
  unfold decodeJump
  split <;> simp_all

/-! ### Serialised words (R52) -/

/-- Two slices that meet, joined. -/
theorem append_adjacent {n : Nat} {w : BitVec n} (hi m k lo : Nat) (h : lo + k = hi) :
    w.extractLsb' hi m ++ w.extractLsb' lo k = w.extractLsb' lo (m + k) := by
  subst h
  ext i hi
  simp
  grind

theorem takeWord_wordToBytes (w : InstrWord) (rest : List Byte) :
    takeWord (wordToBytes w ++ rest) = some (w, rest) := by
  simp only [wordToBytes, List.cons_append, List.nil_append, takeWord, Option.some.injEq, Prod.mk.injEq, and_true]
  rw [append_adjacent 72 8 8 64, append_adjacent 64 16 8 56, append_adjacent 56 24 8 48, append_adjacent 48 32 8 40,
    append_adjacent 40 40 8 32, append_adjacent 32 48 8 24, append_adjacent 24 56 8 16, append_adjacent 16 64 8 8,
    append_adjacent 8 72 8 0]
  all_goals first | rfl | (ext i hi; simp)

end Sys2Proof
end

