-- ==== Sys2Proof/Laws/Flags.lean ====
section
/-! SUPPORT. The predicates of the conditional jumps as propositions about the flag's signed value. -/

namespace Sys2Proof.Machine

variable (f : Word)

@[simp] theorem flagZero_iff : flagZero f = true ↔ f.toInt = 0 := by simp [flagZero]
@[simp] theorem flagPositive_iff : flagPositive f = true ↔ f.toInt > 0 := by simp [flagPositive]
@[simp] theorem flagNegative_iff : flagNegative f = true ↔ f.toInt < 0 := by simp [flagNegative]
@[simp] theorem flagNonNegative_iff : flagNonNegative f = true ↔ f.toInt ≥ 0 := by simp [flagNonNegative]
@[simp] theorem flagNonPositive_iff : flagNonPositive f = true ↔ f.toInt ≤ 0 := by simp [flagNonPositive]

end Sys2Proof.Machine
end

