-- ==== Sys2Proof/Laws/State.lean ====
section
/-! SUPPORT. One lemma per field per update of the state, and the laws of the register file. -/

namespace Sys2Proof.Machine

/-! ### Register names -/

@[simp] theorem RegName.ofNumber_index (r : RegName) : RegName.ofNumber r.index = some r := by cases r <;> rfl

theorem RegName.index_bounds (r : RegName) : 1 ≤ r.index ∧ r.index ≤ 10 := by cases r <;> decide

theorem RegName.index_injective {r q : RegName} (h : r.index = q.index) : r = q := by
  have := congrArg RegName.ofNumber h
  simpa using this

theorem RegName.ofNumber_eq_some {n : Nat} {r : RegName} (h : RegName.ofNumber n = some r) : r.index = n := by
  unfold RegName.ofNumber at h
  split at h <;> simp at h <;> subst h <;> rfl

theorem RegName.ofNumber_eq_none {n : Nat} : RegName.ofNumber n = none ↔ ¬ (1 ≤ n ∧ n ≤ 10) := by
  constructor
  · intro h hn
    obtain ⟨h1, h2⟩ := hn
    interval_cases n <;> simp [RegName.ofNumber] at h
  · intro h
    cases hr : RegName.ofNumber n with
    | none => rfl
    | some r => exact absurd (RegName.ofNumber_eq_some hr ▸ r.index_bounds) h

/-! ### The register file (R24) -/

theorem RegFile.get_set_same (f : RegFile) (r : RegName) (v : Word) : (f.set r v).get r = v := by cases r <;> rfl

theorem RegFile.get_set_other (f : RegFile) {r q : RegName} (v : Word) (h : q ≠ r) :
    (f.set r v).get q = f.get q := by
  cases r <;> cases q <;> first | rfl | exact absurd rfl h

theorem RegFile.set_get_self (f : RegFile) (r : RegName) : f.set r (f.get r) = f := by cases r <;> rfl

theorem RegFile.ext_get {f g : RegFile} (h : ∀ r, f.get r = g.get r) : f = g := by
  cases f; cases g
  have h1 := h .r1; have h2 := h .r2; have h3 := h .r3; have h4 := h .r4; have h5 := h .r5
  have h6 := h .r6; have h7 := h .r7; have h8 := h .r8; have h9 := h .r9; have h10 := h .r10
  simp only [RegFile.get] at h1 h2 h3 h4 h5 h6 h7 h8 h9 h10
  simp [*]

@[simp] theorem RegFile.get_zero (r : RegName) : RegFile.zero.get r = 0 := by cases r <;> rfl

/-! ### writeReg -/

variable (s : State) (r : RegName) (v : Word) (t : PcWord)

@[simp] theorem State.writeReg_regs : (s.writeReg r v).regs = s.regs.set r v := rfl
@[simp] theorem State.writeReg_flag : (s.writeReg r v).flag = s.flag := rfl
@[simp] theorem State.writeReg_pc : (s.writeReg r v).pc = s.pc := rfl
@[simp] theorem State.writeReg_fault : (s.writeReg r v).fault = s.fault := rfl
@[simp] theorem State.writeReg_output : (s.writeReg r v).output = s.output := rfl
@[simp] theorem State.writeReg_image : (s.writeReg r v).image = s.image := rfl

/-! ### writeFlag -/

@[simp] theorem State.writeFlag_regs : (s.writeFlag v).regs = s.regs := rfl
@[simp] theorem State.writeFlag_flag : (s.writeFlag v).flag = v := rfl
@[simp] theorem State.writeFlag_pc : (s.writeFlag v).pc = s.pc := rfl
@[simp] theorem State.writeFlag_fault : (s.writeFlag v).fault = s.fault := rfl
@[simp] theorem State.writeFlag_output : (s.writeFlag v).output = s.output := rfl
@[simp] theorem State.writeFlag_image : (s.writeFlag v).image = s.image := rfl

/-! ### advance and jumpTo -/

@[simp] theorem State.advance_regs : s.advance.regs = s.regs := rfl
@[simp] theorem State.advance_flag : s.advance.flag = s.flag := rfl
@[simp] theorem State.advance_pc : s.advance.pc = s.pc + 1 := rfl
@[simp] theorem State.advance_fault : s.advance.fault = s.fault := rfl
@[simp] theorem State.advance_output : s.advance.output = s.output := rfl
@[simp] theorem State.advance_image : s.advance.image = s.image := rfl

@[simp] theorem State.jumpTo_regs : (s.jumpTo t).regs = s.regs := rfl
@[simp] theorem State.jumpTo_flag : (s.jumpTo t).flag = s.flag := rfl
@[simp] theorem State.jumpTo_pc : (s.jumpTo t).pc = t := rfl
@[simp] theorem State.jumpTo_fault : (s.jumpTo t).fault = s.fault := rfl
@[simp] theorem State.jumpTo_output : (s.jumpTo t).output = s.output := rfl
@[simp] theorem State.jumpTo_image : (s.jumpTo t).image = s.image := rfl

/-! ### emit -/

@[simp] theorem State.emit_regs : (s.emit r v).regs = s.regs := rfl
@[simp] theorem State.emit_flag : (s.emit r v).flag = s.flag := rfl
@[simp] theorem State.emit_pc : (s.emit r v).pc = s.pc := rfl
@[simp] theorem State.emit_fault : (s.emit r v).fault = s.fault := rfl
@[simp] theorem State.emit_output : (s.emit r v).output = s.output ++ [⟨r, v⟩] := rfl
@[simp] theorem State.emit_image : (s.emit r v).image = s.image := rfl

/-! ### applyReset and boot -/

@[simp] theorem State.applyReset_regs : s.applyReset.regs = RegFile.zero := rfl
@[simp] theorem State.applyReset_flag : s.applyReset.flag = 0 := rfl
@[simp] theorem State.applyReset_pc : s.applyReset.pc = 0 := rfl
@[simp] theorem State.applyReset_fault : s.applyReset.fault = none := rfl
@[simp] theorem State.applyReset_output : s.applyReset.output = [] := rfl
@[simp] theorem State.applyReset_image : s.applyReset.image = s.image := rfl

theorem State.boot_eq_applyReset (im : Image) : State.boot im = ({ s with image := im } : State).applyReset := rfl

end Sys2Proof.Machine
end

