-- ==== Sys2Proof/Laws/Ops.lean ====
section
/-! SUPPORT. What each shared operation of Machine/Ops.lean can do. -/

namespace Sys2Proof.Machine

/-- The state fault entry leaves (R199). -/
abbrev raised (e : Failure) (s : State) : State := { s with fault := some ⟨e.code, s.pc, e.opnd⟩ }

theorem raise_eq (e : Failure) (s : State) : raise e s = .next (raised e s) := rfl

@[simp] theorem andThen_ok {α : Type} (v : α) (s : State) (k : α → Result) : andThen (.ok v) s k = k v := rfl

@[simp] theorem andThen_error {α : Type} (e : Failure) (s : State) (k : α → Result) :
    andThen (.error e) s k = .next (raised e s) := rfl

/-- A checked value either goes on or faults. -/
theorem andThen_cases {α : Type} {check : Except Failure α} {s : State} {k : α → Result} {out : Result}
    (h : andThen check s k = out) :
    (∃ v, check = .ok v ∧ k v = out) ∨ (∃ e, check = .error e ∧ out = .next (raised e s)) := by
  cases check with
  | ok v => exact .inl ⟨v, rfl, h⟩
  | error e => exact .inr ⟨e, rfl, h.symm⟩

/-! ### Registers (R21, R22) -/

@[simp] theorem getReg_index (r : RegName) (p : OperandPos) (s : State) :
    getReg r.index p s = .ok (s.regs.get r) := by simp [getReg]

@[simp] theorem setReg_index (r : RegName) (v : Word) (p : OperandPos) (s : State) :
    setReg r.index v p s = .ok (s.writeReg r v) := by simp [setReg]

theorem getReg_invalid {n : Nat} (h : ¬ (1 ≤ n ∧ n ≤ 10)) (p : OperandPos) (s : State) :
    getReg n p s = .error ⟨.invalidRegister, p⟩ := by simp [getReg, RegName.ofNumber_eq_none.2 h]

theorem setReg_invalid {n : Nat} (h : ¬ (1 ≤ n ∧ n ≤ 10)) (v : Word) (p : OperandPos) (s : State) :
    setReg n v p s = .error ⟨.invalidRegister, p⟩ := by simp [setReg, RegName.ofNumber_eq_none.2 h]

/-- What `getReg` can answer. -/
theorem getReg_cases (n : Nat) (p : OperandPos) (s : State) :
    (∃ r : RegName, n = r.index ∧ getReg n p s = .ok (s.regs.get r)) ∨
    (¬ (1 ≤ n ∧ n ≤ 10) ∧ getReg n p s = .error ⟨.invalidRegister, p⟩) := by
  cases h : RegName.ofNumber n with
  | some r =>
    obtain rfl := RegName.ofNumber_eq_some h
    exact .inl ⟨r, rfl, getReg_index r p s⟩
  | none => exact .inr ⟨RegName.ofNumber_eq_none.1 h, getReg_invalid (RegName.ofNumber_eq_none.1 h) p s⟩

/-! ### The image (R31, R55, R170) -/

theorem Image.resolve_eq_some {im : Image} {i : Nat} {t : PcWord} :
    im.resolve i = some t ↔ im.labels[i]? = some (some t) := by
  unfold Image.resolve
  split
  · rename_i u hu
    simp [hu]
  · rename_i hn
    constructor
    · intro h; cases h
    · intro h; exact absurd h (hn t)

theorem Image.resolve_eq_none {im : Image} {i : Nat} :
    im.resolve i = none ↔ ∀ t, im.labels[i]? ≠ some (some t) := by
  constructor
  · intro h t ht
    rw [Image.resolve_eq_some.2 ht] at h
    cases h
  · intro h
    cases hr : im.resolve i with
    | none => rfl
    | some t => exact absurd (Image.resolve_eq_some.1 hr) (h t)

/-- The bounds a well-formed image keeps. -/
theorem Image.wf_iff {im : Image} :
    im.wf = true ↔
      im.imem.length ≤ Config.maxLen ∧ im.labels.length ≤ Config.maxLabels ∧
        ∀ t : PcWord, some t ∈ im.labels → t.toNat ≤ im.imem.length := by
  simp only [Image.wf, Bool.and_eq_true, decide_eq_true_eq, List.all_eq_true, and_assoc]
  refine and_congr_right fun _ => and_congr_right fun _ => ⟨fun h t ht => ?_, fun h e he => ?_⟩
  · simpa using h (some t) ht
  · cases e with
    | none => rfl
    | some t => simpa using h t he

@[simp] theorem Image.wf_empty : Image.empty.wf = true := by decide

/-! ### Placing a word (log entry 4) -/

@[simp] theorem placeWord_getElem? (ws : List InstrWord) (p : Nat) (w : InstrWord) : (placeWord ws p w)[p]? = some w := by
  induction p generalizing ws with
  | zero => cases ws <;> rfl
  | succ p ih => cases ws <;> simp [placeWord, ih]

theorem placeWord_length (ws : List InstrWord) (p : Nat) (w : InstrWord) :
    (placeWord ws p w).length = max ws.length (p + 1) := by
  induction p generalizing ws with
  | zero => cases ws <;> simp [placeWord]
  | succ p ih => cases ws <;> simp [placeWord, ih]

/-- Every other address that held a word holds it still. -/
theorem placeWord_other {ws : List InstrWord} {p q : Nat} (w : InstrWord) (h : q ≠ p) (hq : q < ws.length) :
    (placeWord ws p w)[q]? = ws[q]? := by
  induction ws generalizing p q with
  | nil => simp at hq
  | cons x xs ih =>
    cases p with
    | zero => cases q with
      | zero => exact absurd rfl h
      | succ q => rfl
    | succ p => cases q with
      | zero => rfl
      | succ q => simpa [placeWord] using ih (by omega) (by simpa using hq)

/-- Placing a word keeps an image well formed, as long as LEN stays representable. -/
theorem Image.wf_placeWord {im : Image} {p : Nat} (w : InstrWord) (h : im.wf = true) (hp : p < Config.maxLen) :
    ({ im with imem := placeWord im.imem p w } : Image).wf = true := by
  obtain ⟨h1, h2, h3⟩ := Image.wf_iff.1 h
  refine Image.wf_iff.2 ⟨?_, h2, fun t ht => ?_⟩
  · simp only [placeWord_length]; omega
  · have := h3 t ht
    simp only [placeWord_length]; omega

/-! ### The status and the fetch (R32, R111) -/

theorem State.fetchDecode_faulted {s : State} {r : FaultRecord} (h : s.fault = some r) :
    s.fetchDecode = .error (.faulted r) := by simp [State.fetchDecode, h]

theorem State.fetchDecode_halted {s : State} (h : s.fault = none) (hp : s.image.len ≤ s.pc.toNat) :
    s.fetchDecode = .error .halted := by
  have : s.image.fetch s.pc.toNat = none := by simpa [Image.fetch, Image.len] using hp
  simp [State.fetchDecode, h, this]

theorem State.fetchDecode_word {s : State} {w : InstrWord} (h : s.fault = none)
    (hw : s.image.imem[s.pc.toNat]? = some w) : s.fetchDecode = .ok (decode w) := by
  simp [State.fetchDecode, h, Image.fetch, hw]

/-- What the fetch can answer, and why. -/
theorem State.fetchDecode_cases (s : State) :
    (∃ r, s.fault = some r ∧ s.fetchDecode = .error (.faulted r)) ∨
    (s.fault = none ∧ s.image.len ≤ s.pc.toNat ∧ s.fetchDecode = .error .halted) ∨
    (∃ w, s.fault = none ∧ s.pc.toNat < s.image.len ∧ s.image.imem[s.pc.toNat]? = some w ∧
      s.fetchDecode = .ok (decode w)) := by
  cases hf : s.fault with
  | some r => exact .inl ⟨r, rfl, State.fetchDecode_faulted hf⟩
  | none =>
    rcases Nat.lt_or_ge s.pc.toNat s.image.len with h | h
    · obtain ⟨w, hw⟩ : ∃ w, s.image.imem[s.pc.toNat]? = some w := ⟨_, List.getElem?_eq_getElem h⟩
      exact .inr (.inr ⟨w, rfl, h, hw, State.fetchDecode_word hf hw⟩)
    · exact .inr (.inl ⟨rfl, h, State.fetchDecode_halted hf h⟩)

theorem State.status_eq (s : State) :
    s.status = if s.fault = none then (if s.image.len ≤ s.pc.toNat then .halted else .running) else .faulted := by
  unfold State.status
  cases h : s.fault <;> simp

end Sys2Proof.Machine
end

