-- ==== Sys2Proof/Laws/Operands.lean ====
section
/-! SUPPORT. What operand evaluation and the shared operand patterns can do. -/

namespace Sys2Proof.Machine

/-! ### valueof (R113) and dest (R114) -/

@[simp] theorem valueof_imm (v : Word) (p : OperandPos) (s : State) : valueof (.imm v) p s = .ok v := rfl

@[simp] theorem valueof_sym (i : Nat) (p : OperandPos) (s : State) :
    valueof (.sym i) p s = .error ⟨.malformedOperand, p⟩ := rfl

@[simp] theorem valueof_reg_index (r : RegName) (p : OperandPos) (s : State) :
    valueof (.reg r.index) p s = .ok (s.regs.get r) := getReg_index r p s

theorem valueof_reg_invalid {n : Nat} (h : ¬ (1 ≤ n ∧ n ≤ 10)) (p : OperandPos) (s : State) :
    valueof (.reg n) p s = .error ⟨.invalidRegister, p⟩ := getReg_invalid h p s

/-- What `valueof` can answer. -/
theorem valueof_cases (o : Operand) (p : OperandPos) (s : State) :
    (∃ v, o = .imm v ∧ valueof o p s = .ok v) ∨
    (∃ r : RegName, o = .reg r.index ∧ valueof o p s = .ok (s.regs.get r)) ∨
    (∃ n, o = .reg n ∧ ¬ (1 ≤ n ∧ n ≤ 10) ∧ valueof o p s = .error ⟨.invalidRegister, p⟩) ∨
    (∃ i, o = .sym i ∧ valueof o p s = .error ⟨.malformedOperand, p⟩) := by
  cases o with
  | imm v => exact .inl ⟨v, rfl, rfl⟩
  | sym i => exact .inr (.inr (.inr ⟨i, rfl, rfl⟩))
  | reg n =>
    rcases getReg_cases n p s with ⟨r, rfl, h⟩ | ⟨hn, h⟩
    · exact .inr (.inl ⟨r, rfl, h⟩)
    · exact .inr (.inr (.inl ⟨n, rfl, hn, h⟩))

@[simp] theorem dest_reg_index (r : RegName) : dest (.reg r.index) = .ok r := by simp [dest]

/-- What `dest` can answer. -/
theorem dest_cases (o : Operand) :
    (∃ r : RegName, o = .reg r.index ∧ dest o = .ok r) ∨
    ((∀ r : RegName, o ≠ .reg r.index) ∧ dest o = .error ⟨.invalidRegister, .first⟩) := by
  cases o with
  | imm v => exact .inr ⟨by simp, rfl⟩
  | sym i => exact .inr ⟨by simp, rfl⟩
  | reg n =>
    cases h : RegName.ofNumber n with
    | some r =>
      obtain rfl := RegName.ofNumber_eq_some h
      exact .inl ⟨r, rfl, dest_reg_index r⟩
    | none =>
      refine .inr ⟨fun r hr => ?_, by simp [dest, h]⟩
      cases hr
      simp at h

theorem dest_of_no_register {o : Operand} (h : ∀ r : RegName, o ≠ .reg r.index) :
    dest o = .error ⟨.invalidRegister, .first⟩ := by
  rcases dest_cases o with ⟨r, hr, -⟩ | ⟨-, hd⟩
  · exact absurd hr (h r)
  · exact hd

/-! ### The templates (R135) -/

theorem writeAndAdvance_eq (d : RegName) (v : Word) (s : State) :
    writeAndAdvance d v s = .next { s with regs := s.regs.set d v, pc := s.pc + 1 } := rfl

/-- Everything a checked two-operand instruction can do: its result in the destination, or one fault. -/
theorem twoOperandChecked_cases (f : Word → Word → Except Failure Word) (a b : Operand) (s : State) :
    (∃ d v r, dest a = .ok d ∧ valueof b .second s = .ok v ∧ f (s.regs.get d) v = .ok r ∧
      twoOperandChecked f a b s = .next { s with regs := s.regs.set d r, pc := s.pc + 1 }) ∨
    (∃ e, twoOperandChecked f a b s = .next (raised e s) ∧
      (dest a = .error e ∨ (∃ d, dest a = .ok d ∧ valueof b .second s = .error e) ∨
        (∃ d v, dest a = .ok d ∧ valueof b .second s = .ok v ∧ f (s.regs.get d) v = .error e))) := by
  unfold twoOperandChecked
  cases hd : dest a with
  | error e => exact .inr ⟨e, rfl, .inl rfl⟩
  | ok d =>
    cases hv : valueof b .second s with
    | error e => exact .inr ⟨e, rfl, .inr (.inl ⟨d, rfl, rfl⟩)⟩
    | ok v =>
      cases hf : f (s.regs.get d) v with
      | error e => exact .inr ⟨e, by simp [hf], .inr (.inr ⟨d, v, rfl, rfl, hf⟩)⟩
      | ok r => exact .inl ⟨d, v, r, rfl, rfl, hf, by simp [hf, writeAndAdvance_eq]⟩

/-- Everything a two-operand instruction without a check of its own can do. -/
theorem twoOperand_cases (f : Word → Word → Word) (a b : Operand) (s : State) :
    (∃ d v, dest a = .ok d ∧ valueof b .second s = .ok v ∧
      twoOperand f a b s = .next { s with regs := s.regs.set d (f (s.regs.get d) v), pc := s.pc + 1 }) ∨
    (∃ e, twoOperand f a b s = .next (raised e s) ∧
      (dest a = .error e ∨ ∃ d, dest a = .ok d ∧ valueof b .second s = .error e)) := by
  rcases twoOperandChecked_cases (fun x v => .ok (f x v)) a b s with
    ⟨d, v, r, hd, hv, hr, h⟩ | ⟨e, h, hd | hd | ⟨d, v, -, -, he⟩⟩
  · cases hr; exact .inl ⟨d, v, hd, hv, h⟩
  · exact .inr ⟨e, h, .inl hd⟩
  · exact .inr ⟨e, h, .inr hd⟩
  · cases he

/-- Everything a one-operand instruction can do. -/
theorem oneOperand_cases (f : Word → Word) (a : Operand) (s : State) :
    (∃ d, dest a = .ok d ∧
      oneOperand f a s = .next { s with regs := s.regs.set d (f (s.regs.get d)), pc := s.pc + 1 }) ∨
    (dest a = .error ⟨.invalidRegister, .first⟩ ∧
      oneOperand f a s = .next (raised ⟨.invalidRegister, .first⟩ s)) := by
  unfold oneOperand
  rcases dest_cases a with ⟨r, -, hd⟩ | ⟨-, hd⟩
  · exact .inl ⟨r, hd, by simp [hd, writeAndAdvance_eq]⟩
  · exact .inr ⟨hd, by simp [hd]⟩

end Sys2Proof.Machine
end

