-- ==== Sys2Proof/Laws/PerInstr.lean ====
section
/-! SUPPORT. Statements made per instruction: the fields of an instruction's word, for every constructor of `Instr`. -/

/-- The fields of the word of an instruction are its opcode number, its operands' kind codes and payloads, and a zero
`rsv`; no field is lost to another (R73 to R77). -/
def Sys2Proof.Laws.EncodeFields.Statement (i : Sys2Proof.Instr) : Prop :=
  Sys2Proof.opcField (Sys2Proof.encode i) = i.opcode ∧
  Sys2Proof.k1Field (Sys2Proof.encode i) = i.first.kindCode ∧
  Sys2Proof.k2Field (Sys2Proof.encode i) = Sys2Proof.optKindCode i.second ∧
  Sys2Proof.rsvField (Sys2Proof.encode i) = 0 ∧
  Sys2Proof.aField (Sys2Proof.encode i) = i.first.payload ∧
  Sys2Proof.bField (Sys2Proof.encode i) = Sys2Proof.optPayload i.second

theorem Sys2Proof.Laws.EncodeFields.mov (a b : Sys2Proof.Operand) : Sys2Proof.Laws.EncodeFields.Statement (.mov a b) := by
  simp [Sys2Proof.Laws.EncodeFields.Statement, Sys2Proof.encode]

theorem Sys2Proof.Laws.EncodeFields.add (a b : Sys2Proof.Operand) : Sys2Proof.Laws.EncodeFields.Statement (.add a b) := by
  simp [Sys2Proof.Laws.EncodeFields.Statement, Sys2Proof.encode]

theorem Sys2Proof.Laws.EncodeFields.sub (a b : Sys2Proof.Operand) : Sys2Proof.Laws.EncodeFields.Statement (.sub a b) := by
  simp [Sys2Proof.Laws.EncodeFields.Statement, Sys2Proof.encode]

theorem Sys2Proof.Laws.EncodeFields.mul (a b : Sys2Proof.Operand) : Sys2Proof.Laws.EncodeFields.Statement (.mul a b) := by
  simp [Sys2Proof.Laws.EncodeFields.Statement, Sys2Proof.encode]

theorem Sys2Proof.Laws.EncodeFields.div (a b : Sys2Proof.Operand) : Sys2Proof.Laws.EncodeFields.Statement (.div a b) := by
  simp [Sys2Proof.Laws.EncodeFields.Statement, Sys2Proof.encode]

theorem Sys2Proof.Laws.EncodeFields.and (a b : Sys2Proof.Operand) : Sys2Proof.Laws.EncodeFields.Statement (.and a b) := by
  simp [Sys2Proof.Laws.EncodeFields.Statement, Sys2Proof.encode]

theorem Sys2Proof.Laws.EncodeFields.or (a b : Sys2Proof.Operand) : Sys2Proof.Laws.EncodeFields.Statement (.or a b) := by
  simp [Sys2Proof.Laws.EncodeFields.Statement, Sys2Proof.encode]

theorem Sys2Proof.Laws.EncodeFields.not (a : Sys2Proof.Operand) : Sys2Proof.Laws.EncodeFields.Statement (.not a) := by
  simp [Sys2Proof.Laws.EncodeFields.Statement, Sys2Proof.encode]

theorem Sys2Proof.Laws.EncodeFields.inc (a : Sys2Proof.Operand) : Sys2Proof.Laws.EncodeFields.Statement (.inc a) := by
  simp [Sys2Proof.Laws.EncodeFields.Statement, Sys2Proof.encode]

theorem Sys2Proof.Laws.EncodeFields.dec (a : Sys2Proof.Operand) : Sys2Proof.Laws.EncodeFields.Statement (.dec a) := by
  simp [Sys2Proof.Laws.EncodeFields.Statement, Sys2Proof.encode]

theorem Sys2Proof.Laws.EncodeFields.cmp (a b : Sys2Proof.Operand) : Sys2Proof.Laws.EncodeFields.Statement (.cmp a b) := by
  simp [Sys2Proof.Laws.EncodeFields.Statement, Sys2Proof.encode]

theorem Sys2Proof.Laws.EncodeFields.jmp (label : Nat) : Sys2Proof.Laws.EncodeFields.Statement (.jmp label) := by
  simp [Sys2Proof.Laws.EncodeFields.Statement, Sys2Proof.encode]

theorem Sys2Proof.Laws.EncodeFields.je (label : Nat) : Sys2Proof.Laws.EncodeFields.Statement (.je label) := by
  simp [Sys2Proof.Laws.EncodeFields.Statement, Sys2Proof.encode]

theorem Sys2Proof.Laws.EncodeFields.jg (label : Nat) : Sys2Proof.Laws.EncodeFields.Statement (.jg label) := by
  simp [Sys2Proof.Laws.EncodeFields.Statement, Sys2Proof.encode]

theorem Sys2Proof.Laws.EncodeFields.jl (label : Nat) : Sys2Proof.Laws.EncodeFields.Statement (.jl label) := by
  simp [Sys2Proof.Laws.EncodeFields.Statement, Sys2Proof.encode]

theorem Sys2Proof.Laws.EncodeFields.jge (label : Nat) : Sys2Proof.Laws.EncodeFields.Statement (.jge label) := by
  simp [Sys2Proof.Laws.EncodeFields.Statement, Sys2Proof.encode]

theorem Sys2Proof.Laws.EncodeFields.jle (label : Nat) : Sys2Proof.Laws.EncodeFields.Statement (.jle label) := by
  simp [Sys2Proof.Laws.EncodeFields.Statement, Sys2Proof.encode]

theorem Sys2Proof.Laws.EncodeFields.print (a : Sys2Proof.Operand) : Sys2Proof.Laws.EncodeFields.Statement (.print a) := by
  simp [Sys2Proof.Laws.EncodeFields.Statement, Sys2Proof.encode]
end

