-- ==== Sys2Proof/Laws/Step.lean ====
section
/-! SUPPORT. What a jump and a step can do, and the packaging of an induction over runs. -/

namespace Sys2Proof.Machine

/-- Everything the jump template can do (R177, R178). -/
theorem branch_cases (policy : Config.UnknownLabelPolicy) (taken : Bool) (label : Nat) (s : State) :
    (∃ t, taken = true ∧ s.image.resolve label = some t ∧ branch policy taken label s = .next { s with pc := t }) ∨
    (taken = true ∧ s.image.resolve label = none ∧ policy = .fault ∧
      branch policy taken label s = .next (raised ⟨.unknownLabel, .first⟩ s)) ∨
    ((taken = false ∨ (taken = true ∧ s.image.resolve label = none ∧ policy = .skip)) ∧
      branch policy taken label s = .next { s with pc := s.pc + 1 }) := by
  cases taken with
  | false => exact .inr (.inr ⟨.inl rfl, rfl⟩)
  | true =>
    cases hr : s.image.resolve label with
    | some t => exact .inl ⟨t, rfl, rfl, by simp [branch, hr, State.jumpTo]⟩
    | none =>
      cases policy with
      | fault => exact .inr (.inl ⟨rfl, rfl, rfl, by simp [branch, hr, raise_eq]⟩)
      | skip => exact .inr (.inr ⟨.inr ⟨rfl, rfl, rfl⟩, by simp [branch, hr, State.advance]⟩)

/-- Everything a step can do: it stops as the status says, takes the fault of a word that is no instruction, or runs
the instruction at `pc` (R111, R112). -/
theorem step_cases (s : State) :
    (∃ r, s.fault = some r ∧ step s = .fault (.faulted r)) ∨
    (s.fault = none ∧ s.image.len ≤ s.pc.toNat ∧ step s = .fault .halted) ∨
    (∃ w e, s.fault = none ∧ s.pc.toNat < s.image.len ∧ s.image.imem[s.pc.toNat]? = some w ∧ decode w = .error e ∧
      step s = .next (raised (decodeFailure e) s)) ∨
    (∃ w i, s.fault = none ∧ s.pc.toNat < s.image.len ∧ s.image.imem[s.pc.toNat]? = some w ∧ decode w = .ok i ∧
      step s = exec i s) := by
  rcases s.fetchDecode_cases with ⟨r, hf, h⟩ | ⟨hf, hp, h⟩ | ⟨w, hf, hp, hw, h⟩
  · exact .inl ⟨r, hf, by simp [step, h]⟩
  · exact .inr (.inl ⟨hf, hp, by simp [step, h]⟩)
  · cases hd : decode w with
    | error e => exact .inr (.inr (.inl ⟨w, e, hf, hp, hw, hd, by simp [step, h, hd, raise_eq]⟩))
    | ok i => exact .inr (.inr (.inr ⟨w, i, hf, hp, hw, hd, by simp [step, h, hd]⟩))

theorem run_zero (s : State) : Sys2Proof.core.run 0 s = .next s := rfl

theorem run_succ_next_of (M : Host.Core) (k : Nat) {s t : M.State} (h : M.step s = .next t) :
    M.run (k + 1) s = M.run k t := by simp only [Host.Core.run, h]

theorem run_succ_fault_of (M : Host.Core) (k : Nat) {s : M.State} {r : M.Fault} (h : M.step s = .fault r) :
    M.run (k + 1) s = .fault r := by simp only [Host.Core.run, h]

theorem run_succ_refused_of (M : Host.Core) (k : Nat) {s : M.State} {r : M.Refusal} (h : M.step s = .refused r) :
    M.run (k + 1) s = .refused r := by simp only [Host.Core.run, h]

theorem run_succ_next (k : Nat) {s t : State} (h : step s = .next t) :
    Sys2Proof.core.run (k + 1) s = Sys2Proof.core.run k t := run_succ_next_of Sys2Proof.core k h

theorem run_succ_fault (k : Nat) {s : State} {r : Fault} (h : step s = .fault r) :
    Sys2Proof.core.run (k + 1) s = .fault r := run_succ_fault_of Sys2Proof.core k h

theorem run_succ_refused (k : Nat) {s : State} {r : Refusal} (h : step s = .refused r) :
    Sys2Proof.core.run (k + 1) s = .refused r := run_succ_refused_of Sys2Proof.core k h

/-- What every step keeps, every run keeps. -/
theorem run_keeps {P : State → Prop} (hstep : ∀ s t, P s → step s = .next t → P t) :
    ∀ (k : Nat) (s t : State), P s → Sys2Proof.core.run k s = .next t → P t := by
  intro k
  induction k with
  | zero => intro s t hs h; cases h; exact hs
  | succ k ih =>
    intro s t hs h
    cases hu : step s with
    | next u => exact ih u t (hstep s u hs hu) (run_succ_next k hu ▸ h)
    | fault r => rw [run_succ_fault k hu] at h; cases h
    | refused r => rw [run_succ_refused k hu] at h; cases h

end Sys2Proof.Machine
end

