-- ==== Sys2Proof/Tests/Slice0.lean ====
section
/-! SUPPORT. The model's own tests: expected results are the vectors of 95_test_vectors.md, and witnesses that the
hypotheses of the obligations can be met. -/

namespace Sys2Proof.Tests

open Sys2Proof.Machine Sys2Proof.Claims

/-! ### Helpers -/

/-- The state an outcome goes on with. -/
def reached (o : Result) : Option State :=
  match o with
  | .next t => some t
  | .fault _ => none
  | .refused _ => none

/-- The state after reset with values in R1, R2 and the flag. -/
def start (x1 x2 flag : Word) : State :=
  { State.reset with regs := { RegFile.zero with r1 := x1, r2 := x2 }, flag := flag }

/-- One step of a one-word program. -/
def after (w : InstrWord) (s : State) : Option State := reached (step { s with image := ⟨[w], []⟩ })

/-- The program of 95_test_vectors.md section 2.6: LEN = 3, label 0 at address 2, label 1 undeclared. -/
def jumpStart (w : InstrWord) (flag : Word) : State :=
  { State.reset with flag := flag, image := ⟨[w, 0, 0], [some 2, none]⟩ }

/-- R1, `pc` and the fault record after one step of a one-word program. -/
def r1After (w : InstrWord) (s : State) : Option (Word × PcWord × Option FaultRecord) :=
  (after w s).map fun t => (t.regs.r1, t.pc, t.fault)

/-- The flag, `pc` and the fault record after one step of a one-word program. -/
def flagAfter (w : InstrWord) (s : State) : Option (Word × PcWord × Option FaultRecord) :=
  (after w s).map fun t => (t.flag, t.pc, t.fault)

/-- `pc` and the fault record after one step of the program of section 2.6. -/
def pcAfterJump (w : InstrWord) (flag : Word) : Option (PcWord × Option FaultRecord) :=
  (reached (step (jumpStart w flag))).map fun t => (t.pc, t.fault)

/-! ### Well-formedness: one ill-formed term per check (R75) -/

theorem test_wf_register_number : (Instr.not (.reg (2 ^ 32))).wellFormed = false := by decide
theorem test_wf_second_operand : (Instr.add (.reg 1) (.reg (2 ^ 32))).wellFormed = false := by decide
theorem test_wf_symbol_index : (Instr.mov (.reg 1) (.sym (2 ^ 32))).wellFormed = false := by decide
theorem test_wf_jump_label : (Instr.jmp (2 ^ 32)).wellFormed = false := by decide
theorem test_wf_greatest_payloads : (Instr.mov (.reg (2 ^ 32 - 1)) (.sym (2 ^ 32 - 1))).wellFormed = true := by decide

/-! ### Decoding and encoding: words of 30_encoding.md and 95_test_vectors.md -/

theorem test_decode_mov : decode 0x01600000000100000005 = .ok (.mov (.reg 1) (.imm 5)) ∧
    encode (.mov (.reg 1) (.imm 5)) = 0x01600000000100000005 := by decide
theorem test_decode_add : decode 0x026000000001FFFFFFFF = .ok (.add (.reg 1) (.imm (-1))) ∧
    encode (.add (.reg 1) (.imm (-1))) = 0x026000000001FFFFFFFF := by decide
theorem test_decode_sub : decode 0x03500000000100000002 = .ok (.sub (.reg 1) (.reg 2)) ∧
    encode (.sub (.reg 1) (.reg 2)) = 0x03500000000100000002 := by decide
theorem test_decode_mul : decode 0x04500000000100000002 = .ok (.mul (.reg 1) (.reg 2)) ∧
    encode (.mul (.reg 1) (.reg 2)) = 0x04500000000100000002 := by decide
theorem test_decode_div : decode 0x05700000000100000000 = .ok (.div (.reg 1) (.sym 0)) ∧
    encode (.div (.reg 1) (.sym 0)) = 0x05700000000100000000 := by decide
theorem test_decode_and : decode 0x066000000001000000FF = .ok (.and (.reg 1) (.imm 255)) ∧
    encode (.and (.reg 1) (.imm 255)) = 0x066000000001000000FF := by decide
theorem test_decode_or : decode 0x07500000000100000002 = .ok (.or (.reg 1) (.reg 2)) ∧
    encode (.or (.reg 1) (.reg 2)) = 0x07500000000100000002 := by decide
theorem test_decode_not : decode 0x08800000000500000000 = .ok (.not (.imm 5)) ∧
    encode (.not (.imm 5)) = 0x08800000000500000000 := by decide
theorem test_decode_inc : decode 0x09400000000C00000000 = .ok (.inc (.reg 12)) ∧
    encode (.inc (.reg 12)) = 0x09400000000C00000000 := by decide
theorem test_decode_dec : decode 0x0A400000000100000000 = .ok (.dec (.reg 1)) ∧
    encode (.dec (.reg 1)) = 0x0A400000000100000000 := by decide
theorem test_decode_cmp : decode 0x0BD0000000000000000B = .ok (.cmp (.sym 0) (.reg 11)) ∧
    encode (.cmp (.sym 0) (.reg 11)) = 0x0BD0000000000000000B := by decide
theorem test_decode_jmp : decode 0x0CC00000000700000000 = .ok (.jmp 7) ∧
    encode (.jmp 7) = 0x0CC00000000700000000 := by decide
theorem test_decode_je : decode 0x0DC00000000100000000 = .ok (.je 1) ∧
    encode (.je 1) = 0x0DC00000000100000000 := by decide
theorem test_decode_jg : decode 0x0EC00000000100000000 = .ok (.jg 1) ∧
    encode (.jg 1) = 0x0EC00000000100000000 := by decide
theorem test_decode_jl : decode 0x0FC00000000200000000 = .ok (.jl 2) ∧
    encode (.jl 2) = 0x0FC00000000200000000 := by decide
theorem test_decode_jge : decode 0x10C00000000300000000 = .ok (.jge 3) ∧
    encode (.jge 3) = 0x10C00000000300000000 := by decide
theorem test_decode_jle : decode 0x11C00000000400000000 = .ok (.jle 4) ∧
    encode (.jle 4) = 0x11C00000000400000000 := by decide
theorem test_decode_print : decode 0x12400000000A00000000 = .ok (.print (.reg 10)) ∧
    encode (.print (.reg 10)) = 0x12400000000A00000000 := by decide
theorem test_decode_opcode_00 : decode 0x00000000000000000000 = .error .unknownOpcode := by decide
theorem test_decode_opcode_13 : decode 0x13400000000100000000 = .error .unknownOpcode := by decide
theorem test_decode_opcode_ff : decode 0xFFFFFFFFFFFFFFFFFFFF = .error .unknownOpcode := by decide
theorem test_decode_reserved_bit : decode 0x02610000000100000005 = .error .malformedInstruction := by decide
theorem test_decode_absent_first : decode 0x02200000000000000005 = .error .malformedInstruction := by decide
theorem test_decode_absent_second : decode 0x02400000000100000000 = .error .malformedInstruction := by decide
theorem test_decode_extra_operand : decode 0x08500000000100000002 = .error .malformedInstruction := by decide
theorem test_decode_stray_payload : decode 0x08400000000100000001 = .error .malformedInstruction := by decide
theorem test_decode_jump_to_register : decode 0x0C400000000000000000 = .error .malformedInstruction := by decide
theorem test_decode_jump_payload : decode 0x0CC00000000000000001 = .error .malformedInstruction := by decide

theorem test_bytes_most_significant_first :
    wordToBytes 0x01600000000100000005 = [0x01, 0x60, 0, 0, 0, 0x01, 0, 0, 0, 0x05] := by decide
theorem test_truncated_bytes : wordsOfBytes 9 (List.replicate 9 0) = none := by decide
theorem test_table_word : decodeTableWord 80 0x01600000000100000005 = some (.mov (.reg 1) (.imm 5)) := by decide
theorem test_table_word_bits_above_zero : decodeTableWord 64 0x01600000000100000005 = none := by decide
theorem test_table_word_too_wide : decodeTableWord 81 0x01600000000100000005 = none := by decide
theorem test_placed_word_runs :
    (reached (step (State.reset.withFetchWord 80 0x01600000000100000005))).map (fun t => (t.regs.r1, t.pc)) =
      some (5, 1) := by decide

/-! ### One step of each instruction (95_test_vectors.md sections 2.1 to 2.7) -/

theorem test_mov_register :
    r1After 0x0150000000010000000A { start 5 0 0 with regs := { RegFile.zero with r10 := 42 } } = some (42, 1, none) := by decide
theorem test_mov_first_operand_faults_first :
    r1After 0x01700000000B00000000 (start 3 0 0) = some (3, 0, some ⟨.invalidRegister, 0, .first⟩) := by decide
theorem test_add_wraps : r1After 0x02600000000100000001 (start 0x7FFFFFFF 0 0) = some (0x80000000, 1, none) := by decide
theorem test_add_register_to_itself :
    r1After 0x02500000000100000001 (start 0x80000000 0 0) = some (0, 1, none) := by decide
theorem test_sub_operand_order : r1After 0x03600000000100000005 (start 3 0 0) = some ((-2), 1, none) := by decide
theorem test_sub_wraps : r1After 0x03600000000180000000 (start 0 0 0) = some (0x80000000, 1, none) := by decide
theorem test_mul_low_bits :
    r1After 0x04500000000100000001 (start 46341 0 0) = some ((-2147479015), 1, none) := by decide
theorem test_mul_signs : r1After 0x04500000000100000002 (start (-3) 5 0) = some ((-15), 1, none) := by decide
theorem test_div_toward_zero : r1After 0x05600000000100000002 (start (-7) 0 0) = some ((-3), 1, none) := by decide
theorem test_div_overflow_wraps :
    r1After 0x056000000001FFFFFFFF (start 0x80000000 0 0) = some (0x80000000, 1, none) := by decide
theorem test_and_patterns : r1After 0x066000000001000000FF (start (-2) 0 0) = some (254, 1, none) := by decide
theorem test_and_registers : r1After 0x06500000000100000002 (start 6 3 0) = some (2, 1, none) := by decide
theorem test_or_registers : r1After 0x07500000000100000002 (start 6 3 0) = some (7, 1, none) := by decide
theorem test_or_ones : r1After 0x076000000001FFFFFFFF (start 5 0 0) = some ((-1), 1, none) := by decide
theorem test_not_inverts : r1After 0x08400000000100000000 (start 6 0 0) = some ((-7), 1, none) := by decide
theorem test_not_literal_faults :
    r1After 0x08800000000500000000 (start 6 0 0) = some (6, 0, some ⟨.invalidRegister, 0, .first⟩) := by decide
theorem test_inc_wraps : r1After 0x09400000000100000000 (start 0x7FFFFFFF 0 0) = some (0x80000000, 1, none) := by decide
theorem test_inc_flag_kept : flagAfter 0x09400000000100000000 (start 0 0 99) = some (99, 1, none) := by decide
theorem test_dec_wraps : r1After 0x0A400000000100000000 (start 0x80000000 0 0) = some (0x7FFFFFFF, 1, none) := by decide
theorem test_dec_below_zero : r1After 0x0A400000000100000000 (start 0 0 0) = some ((-1), 1, none) := by decide
theorem test_cmp_operand_order : flagAfter 0x0B900000000500000001 (start 2 0 0) = some (3, 1, none) := by decide
theorem test_cmp_wraps :
    flagAfter 0x0B600000000100000001 (start 0x80000000 0 0) = some (0x7FFFFFFF, 1, none) := by decide
theorem test_div_by_zero_keeps_register :
    r1After 0x05600000000100000000 (start 7 0 0) = some (7, 0, some ⟨.divisionByZero, 0, .second⟩) := by decide
theorem test_cmp_fault_keeps_flag :
    flagAfter 0x0BD0000000000000000B (start 0 0 99) = some (99, 0, some ⟨.malformedOperand, 0, .first⟩) := by decide
theorem test_unknown_opcode :
    r1After 0xFF600000000100000005 (start 4 0 0) = some (4, 0, some ⟨.unknownOpcode, 0, .noOperand⟩) := by decide
theorem test_malformed_word :
    r1After 0x02610000000100000005 (start 4 0 0) = some (4, 0, some ⟨.malformedInstruction, 0, .noOperand⟩) := by decide
theorem test_jmp : pcAfterJump 0x0CC00000000000000000 5 = some (2, none) := by decide
theorem test_je_zero : pcAfterJump 0x0DC00000000000000000 0 = some (2, none) := by decide
theorem test_je_other : pcAfterJump 0x0DC00000000000000000 5 = some (1, none) := by decide
theorem test_jg_positive : pcAfterJump 0x0EC00000000000000000 1 = some (2, none) := by decide
theorem test_jg_zero : pcAfterJump 0x0EC00000000000000000 0 = some (1, none) := by decide
theorem test_jl_negative : pcAfterJump 0x0FC00000000000000000 (-1) = some (2, none) := by decide
theorem test_jl_zero : pcAfterJump 0x0FC00000000000000000 0 = some (1, none) := by decide
theorem test_jge_zero : pcAfterJump 0x10C00000000000000000 0 = some (2, none) := by decide
theorem test_jge_least : pcAfterJump 0x10C00000000000000000 0x80000000 = some (1, none) := by decide
theorem test_jle_zero : pcAfterJump 0x11C00000000000000000 0 = some (2, none) := by decide
theorem test_jle_greatest : pcAfterJump 0x11C00000000000000000 0x7FFFFFFF = some (1, none) := by decide
theorem test_jmp_past_the_table :
    pcAfterJump 0x0CC00000000700000000 0 = some (0, some ⟨.unknownLabel, 0, .first⟩) := by decide
theorem test_je_undeclared_not_taken : pcAfterJump 0x0DC00000000100000000 3 = some (1, none) := by decide
theorem test_print_record :
    (after 0x12400000000100000000 (start 8 0 0)).map (fun t => (t.output, t.regs.r1, t.pc)) =
      some ([⟨.r1, 8⟩], 8, 1) := by decide
theorem test_print_text : (OutRecord.mk .r10 (-3)).line = "R10 : -3".toList := by decide

/-- The numeric codes of the faults (R190). -/
theorem test_fault_codes :
    FaultCode.unknownOpcode.number = 1 ∧ FaultCode.malformedInstruction.number = 2 ∧
    FaultCode.invalidRegister.number = 3 ∧ FaultCode.malformedOperand.number = 4 ∧
    FaultCode.divisionByZero.number = 5 ∧ FaultCode.unknownLabel.number = 6 := by decide

/-! ### Halting, reset, assembler (R32, R220, 95_test_vectors.md section 2.9) -/

theorem test_reset_without_program : State.reset.status = .halted ∧ reached (step State.reset) = none := by decide
theorem test_boot_runs : (State.boot ⟨[0], []⟩).status = .running := by decide
theorem test_reset_clears_fault :
    (State.applyReset { start 5 6 7 with fault := some ⟨.unknownLabel, 3, .first⟩ }) = State.reset := by decide
theorem test_label_of_jump_is_no_register :
    assemble "JMP R1\n:R1".toList = .ok ⟨[0x0CC00000000000000000], [some 1]⟩ := by decide
theorem test_undeclared_label_has_an_entry :
    assemble "JE NOWHERE".toList = .ok ⟨[0x0DC00000000000000000], [none]⟩ := by decide
theorem test_literal_out_of_range :
    assemble "MOV R1, 2147483648".toList = .ok ⟨[0x01700000000100000000], []⟩ := by decide
theorem test_empty_label_name : assemble ":".toList = .error (.malformedInstruction ":".toList) := by decide
theorem test_no_instruction : assemble "\n:L\n  ".toList = .ok ⟨[], [some 0]⟩ := by decide

/-! ### Witnesses: the hypotheses of the obligations can be met -/

/-- MovRule to OrRule, DivRule, CmpRule and the laws over a readable operand: both forms of it, at both ends of the
register range, with a zero and a non-zero value. -/
theorem witness_reads :
    Reads (start 7 0 0) (.reg 1) 7 ∧ Reads (start 7 0 0) (.reg 10) 0 ∧ Reads (start 7 0 0) (.imm 5) 5 ∧
      Reads (start 7 0 0) (.imm 0) 0 ∧ (5 : Word) ≠ 0 :=
  ⟨.inr ⟨.r1, rfl, rfl⟩, .inr ⟨.r10, rfl, rfl⟩, .inl rfl, .inl rfl, by decide⟩

/-- The rules with a destination: operands that name no register, both numbers beside the range, a literal, a symbol. -/
theorem witness_names_no_register :
    NamesNoRegister (.reg 0) ∧ NamesNoRegister (.reg 11) ∧ NamesNoRegister (.imm 5) ∧ NamesNoRegister (.sym 0) := by
  refine ⟨?_, ?_, ?_, ?_⟩ <;> intro r <;> cases r <;> unfold Names <;> decide

/-- RegisterReferencesValidate, CmpRule, the rules with a source: numbers beside the register range. -/
theorem witness_invalid_number : ¬ (1 ≤ 0 ∧ 0 ≤ 10) ∧ ¬ (1 ≤ 11 ∧ 11 ≤ 10) := by decide

/-- RegisterFileContract: either reference out of range; two registers that differ. -/
theorem witness_register_file :
    ¬ (1 ≤ 0 ∧ 0 ≤ 10 ∧ 1 ≤ 1 ∧ 1 ≤ 10) ∧ ¬ (1 ≤ 10 ∧ 10 ≤ 10 ∧ 1 ≤ 11 ∧ 11 ≤ 10) ∧ RegName.r10 ≠ RegName.r1 := by
  decide

/-- RegisterReferencesValidate: the digits of a register token. -/
theorem witness_register_token : isNumber ['0', '1', '0'] = true ∧ isNumber ['0'] = true := by decide

/-- Words that meet the hypotheses of DecodesTwo and DecodesOne. -/
theorem witness_decode_two :
    opcField 0x0150000000010000000A = 0x01 ∧ rsvField 0x0150000000010000000A = 0 ∧
    operandOf (k1Field 0x0150000000010000000A) (aField 0x0150000000010000000A) = some (.reg 1) ∧
    operandOf (k2Field 0x0150000000010000000A) (bField 0x0150000000010000000A) = some (.reg 10) := by decide
theorem witness_decode_one :
    opcField 0x08800000000500000000 = 0x08 ∧ rsvField 0x08800000000500000000 = 0 ∧
    k2Field 0x08800000000500000000 = 0 ∧ bField 0x08800000000500000000 = 0 ∧
    operandOf (k1Field 0x08800000000500000000) (aField 0x08800000000500000000) = some (.imm 5) := by decide

/-- JmpRule, LabelResolution: a declared label, an undeclared one inside the table, and one at NLAB. -/
theorem witness_resolves : Resolves (jumpStart 0 0) 0 2 := rfl
theorem witness_unresolved_inside : Unresolved (jumpStart 0 0) 1 := fun t h => by cases h
theorem witness_unresolved_past : Unresolved (jumpStart 0 0) 2 := fun t h => by cases h

/-- The rules of the conditional jumps: a flag at the edge for which the jump is taken, with a declared and an undeclared
label, and one for which it is not. -/
theorem witness_je :
    (jumpStart 0 0).flag.toInt = 0 ∧ Resolves (jumpStart 0 0) 0 2 ∧ Unresolved (jumpStart 0 0) 1 ∧
    ¬ (jumpStart 0 1).flag.toInt = 0 := ⟨by decide, rfl, (by intro t h; cases h), by decide⟩
theorem witness_jg :
    (jumpStart 0 1).flag.toInt > 0 ∧ Resolves (jumpStart 0 1) 0 2 ∧ Unresolved (jumpStart 0 1) 1 ∧
    ¬ (jumpStart 0 0).flag.toInt > 0 := ⟨by decide, rfl, (by intro t h; cases h), by decide⟩
theorem witness_jl :
    (jumpStart 0 (-1)).flag.toInt < 0 ∧ Resolves (jumpStart 0 (-1)) 0 2 ∧ Unresolved (jumpStart 0 (-1)) 1 ∧
    ¬ (jumpStart 0 0).flag.toInt < 0 := ⟨by decide, rfl, (by intro t h; cases h), by decide⟩
theorem witness_jge :
    (jumpStart 0 0).flag.toInt ≥ 0 ∧ Resolves (jumpStart 0 0) 0 2 ∧ Unresolved (jumpStart 0 0) 1 ∧
    ¬ (jumpStart 0 (-1)).flag.toInt ≥ 0 := ⟨by decide, rfl, (by intro t h; cases h), by decide⟩
theorem witness_jle :
    (jumpStart 0 0).flag.toInt ≤ 0 ∧ Resolves (jumpStart 0 0) 0 2 ∧ Unresolved (jumpStart 0 0) 1 ∧
    ¬ (jumpStart 0 1).flag.toInt ≤ 0 := ⟨by decide, rfl, (by intro t h; cases h), by decide⟩

/-- JumpOutcomeTable: a declared label with a flag of each sign. -/
theorem witness_jump_table :
    (Resolves (jumpStart 0 (-1)) 0 2 ∧ (jumpStart 0 (-1)).flag.toInt < 0) ∧
    (Resolves (jumpStart 0 0) 0 2 ∧ (jumpStart 0 0).flag.toInt = 0) ∧
    (Resolves (jumpStart 0 1) 0 2 ∧ (jumpStart 0 1).flag.toInt > 0) :=
  ⟨⟨rfl, by decide⟩, ⟨rfl, by decide⟩, ⟨rfl, by decide⟩⟩

/-- UnresolvedLabelPolicies: a jump taken to an undeclared label; a jump that is not taken. -/
theorem witness_policies :
    takenLabel (jumpStart 0 0).flag (.je 1) = some 1 ∧ Unresolved (jumpStart 0 0) 1 ∧
    ¬ (false = true ∧ Unresolved (jumpStart 0 0) 1) :=
  ⟨rfl, (by intro t h; cases h), by intro h; cases h.1⟩

/-- JumpTargetProperties: a jump taken to its own address, to the next one, and to LEN. -/
theorem witness_taken :
    takenLabel State.reset.flag (.jle 0) = some 0 ∧
    Resolves { State.reset with image := ⟨[0], [some 0]⟩ } 0 State.reset.pc ∧
    Resolves { State.reset with image := ⟨[0], [some 1]⟩ } 0 (State.reset.pc + 1) :=
  ⟨by decide, rfl, rfl⟩
theorem witness_taken_to_the_end :
    (State.boot ⟨[0x0CC00000000000000000], [some 1]⟩).fault = none ∧
    (⟨[0x0CC00000000000000000], [some 1]⟩ : Image).imem[State.reset.pc.toNat]? = some 0x0CC00000000000000000 ∧
    decode 0x0CC00000000000000000 = .ok (.jmp 0) ∧ takenLabel State.reset.flag (.jmp 0) = some 0 ∧
    Resolves (State.boot ⟨[0x0CC00000000000000000], [some 1]⟩) 0 1 ∧
    (1 : PcWord).toNat = (⟨[0x0CC00000000000000000], [some 1]⟩ : Image).len :=
  ⟨rfl, rfl, by decide, rfl, rfl, rfl⟩

/-- DivisionIdentity, CompareOverflowCorner: the corner of the division and of the comparison, and their absence. -/
theorem witness_division_corner :
    (start 0x80000000 0 0).regs.get .r1 = BitVec.intMin 32 ∧ (-1 : Word).toInt = -1 ∧ (-1 : Word) ≠ 0 ∧
    ¬ ((start 7 0 0).regs.get .r1 = BitVec.intMin 32 ∧ (2 : Word).toInt = -1) := by decide
theorem witness_compare_corner :
    ∃ t, exec (.cmp (.imm 0x80000000) (.imm 1)) (State.boot ⟨[0], [some 0]⟩) = .next t ∧ Resolves t 0 0 ∧
      0 ≠ t.pc + 1 ∧ ¬ DifferenceFits 0x80000000 1 ∧ (0x80000000 : Word).toInt < (1 : Word).toInt ∧
      ¬ DifferenceFits 0x7FFFFFFF (-1) ∧ (0x7FFFFFFF : Word).toInt > (-1 : Word).toInt := by
  refine ⟨_, rfl, rfl, ?_⟩
  unfold DifferenceFits
  decide

/-- FetchAndDecode, FirstFailingCheckIsReported, StepRunsTheDecodedInstruction: a running core with a word of each of the
decoder's three cases at `pc`, the third with a check that fails and with none. -/
theorem witness_fetch_unknown :
    (start 0 0 0).fault = none ∧ (⟨[0], []⟩ : Image).imem[(start 0 0 0).pc.toNat]? = some 0 ∧
    decode 0 = .error .unknownOpcode := by decide
theorem witness_fetch_malformed :
    (start 0 0 0).fault = none ∧
    (⟨[0x0C800000000000000000], []⟩ : Image).imem[(start 0 0 0).pc.toNat]? = some 0x0C800000000000000000 ∧
    decode 0x0C800000000000000000 = .error .malformedInstruction := by decide
theorem witness_fetch_failing_check :
    (start 0 0 0).fault = none ∧
    (⟨[0x05600000000100000000], []⟩ : Image).imem[(start 0 0 0).pc.toNat]? = some 0x05600000000100000000 ∧
    decode 0x05600000000100000000 = .ok (.div (.reg 1) (.imm 0)) ∧
    firstFailure (checks (start 0 0 0) (.div (.reg 1) (.imm 0))) = some ⟨.divisionByZero, .second⟩ := by decide
theorem witness_fetch_no_failing_check :
    (start 0 0 0).fault = none ∧
    (⟨[0x0BA00000000700000007], []⟩ : Image).imem[(start 0 0 0).pc.toNat]? = some 0x0BA00000000700000007 ∧
    decode 0x0BA00000000700000007 = .ok (.cmp (.imm 7) (.imm 7)) ∧
    firstFailure (checks (start 0 0 0) (.cmp (.imm 7) (.imm 7))) = none := by decide

/-- The checks in order, by hand from R115. -/
theorem test_first_failure :
    firstFailure (checks (start 0 0 0) (.mov (.reg 11) (.sym 0))) = some ⟨.invalidRegister, .first⟩ ∧
    firstFailure (checks (jumpStart 0 0) (.jg 1)) = none ∧
    firstFailure (checks (jumpStart 0 0) (.je 1)) = some ⟨.unknownLabel, .first⟩ := by decide

/-- PcUpdate, FaultEntryWritesOnlyTheRecord, FlagWrittenByCmpReadByConditionalJumps, ImageNeverChanges: a step that goes
on with a fault, and one without. -/
theorem witness_step_faults :
    State.reset.fault = none ∧
    ∃ t, step { State.reset with image := ⟨[0], []⟩ } = .next t ∧ t.fault ≠ none := ⟨rfl, _, rfl, by decide⟩
theorem witness_step_goes_on :
    State.reset.fault = none ∧
    ∃ t, step { State.reset with image := ⟨[0x09400000000100000000], []⟩ } = .next t ∧ t.fault = none :=
  ⟨rfl, _, rfl, by decide⟩

/-- OutputGrowsByPrintAlone, OutputIsNeverRead: a step, and an instruction, that appends a record. -/
theorem witness_print :
    (∃ t, step { State.reset with image := ⟨[0x12400000000100000000], []⟩ } = .next t ∧ t.output ≠ State.reset.output) ∧
    ∃ t, exec (.print (.reg 1)) (start 8 0 0) = .next t ∧ t.output ≠ (start 8 0 0).output :=
  ⟨⟨_, rfl, by decide⟩, _, rfl, by decide⟩

/-- OnlyARunningCoreHasAStep, StoppedCoreNamesItsStatus, ResetLeaves, OnlyResetLeavesHaltedAndFaulted: every status, and
both kinds of core that are not Running, one with a program. -/
theorem witness_statuses :
    State.reset.status = .halted ∧ State.reset.image.len = 0 ∧ (jumpStart 0 0).status = .running ∧
    ({ jumpStart 0 0 with fault := some ⟨.unknownLabel, 0, .first⟩ } : State).status = .faulted ∧
    ({ jumpStart 0 0 with pc := 3 } : State).status ≠ .running ∧ 0 < (jumpStart 0 0).image.len := by decide

/-- FlagWrittenByCmpReadByConditionalJumps: CMP changes the flag; an instruction that is no conditional jump. -/
theorem witness_flag_written :
    ∃ t, exec (.cmp (.imm 5) (.imm 3)) (start 0 0 0) = .next t ∧ t.flag ≠ (start 0 0 0).flag :=
  ⟨_, rfl, by decide⟩
theorem witness_no_conditional_jump :
    isConditionalJump (.jmp 0) = false ∧ ∃ t, exec (.jmp 0) (jumpStart 0 5) = .next t := ⟨rfl, _, rfl⟩

/-- RegistersReadAndWritten: a register an instruction does not write; another register file that agrees on what it
reads. -/
theorem witness_register_frame :
    ¬ writesReg (.add (.reg 1) (.reg 2)) .r2 ∧ ∃ t, exec (.add (.reg 1) (.reg 2)) (start 1 2 0) = .next t := by
  refine ⟨?_, _, rfl⟩
  unfold writesReg Names
  decide
theorem witness_registers_agree :
    (∀ r, readsReg (.mov (.reg 3) (.reg 2)) r → (start 9 2 0).regs.get r = (start 1 2 0).regs.get r) ∧
    ∃ t, exec (.mov (.reg 3) (.reg 2)) (start 1 2 0) = .next t := by
  refine ⟨?_, _, rfl⟩
  intro r
  cases r <;> simp [readsReg, Names, start, RegFile.get, RegName.index]

/-- InvariantHoldsAtReset, StepKeepsInvariant, RunsStayWithinTheProgram, LabelResolution: an image within its bounds, a
state that meets the invariant and has a step, a run of it to its end. -/
theorem witness_image :
    Image.wf ⟨[0x09400000000100000000], [some 1, none]⟩ = true ∧
    (⟨[0x09400000000100000000], [some 1, none]⟩ : Image).resolve 0 = some 1 ∧
    (⟨[0x09400000000100000000], [some 1, none]⟩ : Image).nlab ≤ 2 := by decide
theorem witness_invariant :
    (State.boot ⟨[0x09400000000100000000], [some 1, none]⟩).Inv ∧
    ∃ t, step (State.boot ⟨[0x09400000000100000000], [some 1, none]⟩) = .next t :=
  ⟨⟨by decide, by decide, by decide⟩, _, rfl⟩
theorem witness_run :
    Image.wf ⟨[0x09400000000100000000], [some 1, none]⟩ = true ∧
    ∃ t, Sys2Proof.core.run 1 (State.boot ⟨[0x09400000000100000000], [some 1, none]⟩) = .next t ∧
      t.endedNormally = true :=
  ⟨by decide, _, rfl, by decide⟩

/-- The encoding statements and PlacedWordRunsNext: a well-formed instruction, a word that decodes, a row, a table word. -/
theorem witness_encoding :
    (Instr.cmp (.sym 0) (.reg (2 ^ 32 - 1))).wellFormed = true ∧
    decode 0x0150000000010000000A = .ok (.mov (.reg 1) (.reg 10)) ∧
    (⟨['M', 'O', 'V'], 0x01, .two⟩ : OpcodeRow) ∈ opcodeTable ∧
    decodeTableWord 80 0x0CC00000000000000000 = some (.jmp 0) ∧
    [(5 : InstrWord)].length ≤ 1 := by decide

/-- StepRunsTheDecodedInstruction: an encoding at `pc`. -/
theorem witness_encoded_at_pc :
    (Instr.jmp 0).wellFormed = true ∧
    (⟨[encode (.jmp 0)], []⟩ : Image).imem[State.reset.pc.toNat]? = some (encode (.jmp 0)) := by decide

/-- AssembledImagesAreWellFormed, AddressesCountInstructionLines: a text that assembles. -/
theorem witness_assembles : assemble "INC R1".toList = .ok ⟨[0x09400000000100000000], []⟩ := by decide

end Sys2Proof.Tests
end

section
/-! SUPPORT. How an instruction can end, what it can do to the comparison flag, and the statements about the state:
register references (R21), the flag (R26), the run status (R32). -/

namespace Sys2Proof.Machine

/-! ### How an instruction can end (R115, R199) -/

/-- An outcome that keeps the fault record, the flag and the image of `s`, or is fault entry from `s`. -/
def KeepsFlagOrRaises (s : State) (out : Result) : Prop :=
  (∃ t, out = .next t ∧ t.fault = s.fault ∧ t.flag = s.flag ∧ t.image = s.image) ∨ ∃ e, out = .next (raised e s)

theorem twoOperandChecked_keepsFlagOrRaises (f : Word → Word → Except Failure Word) (a b : Operand) (s : State) :
    KeepsFlagOrRaises s (twoOperandChecked f a b s) := by
  rcases twoOperandChecked_cases f a b s with ⟨d, v, r, -, -, -, h⟩ | ⟨e, h, -⟩
  · exact .inl ⟨_, h, rfl, rfl, rfl⟩
  · exact .inr ⟨e, h⟩

theorem twoOperand_keepsFlagOrRaises (f : Word → Word → Word) (a b : Operand) (s : State) :
    KeepsFlagOrRaises s (twoOperand f a b s) := twoOperandChecked_keepsFlagOrRaises _ a b s

theorem oneOperand_keepsFlagOrRaises (f : Word → Word) (a : Operand) (s : State) :
    KeepsFlagOrRaises s (oneOperand f a s) := by
  rcases oneOperand_cases f a s with ⟨d, -, h⟩ | ⟨-, h⟩
  · exact .inl ⟨_, h, rfl, rfl, rfl⟩
  · exact .inr ⟨_, h⟩

theorem branch_keepsFlagOrRaises (policy : Config.UnknownLabelPolicy) (taken : Bool) (label : Nat) (s : State) :
    KeepsFlagOrRaises s (branch policy taken label s) := by
  rcases branch_cases policy taken label s with ⟨t, -, -, h⟩ | ⟨-, -, -, h⟩ | ⟨-, h⟩
  · exact .inl ⟨_, h, rfl, rfl, rfl⟩
  · exact .inr ⟨_, h⟩
  · exact .inl ⟨_, h, rfl, rfl, rfl⟩

/-- Everything MOV can do (R130). -/
theorem execMov_cases (a b : Operand) (s : State) :
    (∃ d v, dest a = .ok d ∧ valueof b .second s = .ok v ∧
      execMov a b s = .next { s with regs := s.regs.set d v, pc := s.pc + 1 }) ∨
    (∃ e, execMov a b s = .next (raised e s) ∧
      (dest a = .error e ∨ ∃ d, dest a = .ok d ∧ valueof b .second s = .error e)) :=
  twoOperand_cases (fun _ v => v) a b s

/-- Everything PRINT can do (R185). -/
theorem execPrint_cases (a : Operand) (s : State) :
    (∃ d, dest a = .ok d ∧ execPrint a s = .next (s.emit d (s.regs.get d)).advance) ∨
    (dest a = .error ⟨.invalidRegister, .first⟩ ∧
      execPrint a s = .next (raised ⟨.invalidRegister, .first⟩ s)) := by
  unfold execPrint
  rcases dest_cases a with ⟨r, -, hd⟩ | ⟨-, hd⟩
  · exact .inl ⟨r, hd, by simp [hd]⟩
  · exact .inr ⟨hd, by simp [hd]⟩

/-- Everything CMP can do (R165). -/
theorem execCmp_cases (a b : Operand) (s : State) :
    (∃ u v, valueof a .first s = .ok u ∧ valueof b .second s = .ok v ∧
      execCmp a b s = .next { s with flag := compareFlag u v, pc := s.pc + 1 }) ∨
    (∃ e, execCmp a b s = .next (raised e s) ∧
      (valueof a .first s = .error e ∨ ∃ u, valueof a .first s = .ok u ∧ valueof b .second s = .error e)) := by
  unfold execCmp
  cases ha : valueof a .first s with
  | error e => exact .inr ⟨e, rfl, .inl rfl⟩
  | ok u =>
    cases hb : valueof b .second s with
    | error e => exact .inr ⟨e, rfl, .inr ⟨u, rfl, rfl⟩⟩
    | ok v => exact .inl ⟨u, v, rfl, rfl, rfl⟩

/-- Every instruction but CMP keeps the flag, whether it completes or faults. -/
theorem exec_keepsFlagOrRaises {i : Instr} (hi : ∀ a b, i ≠ .cmp a b) (s : State) :
    KeepsFlagOrRaises s (exec i s) := by
  cases i with
  | mov a b => exact twoOperand_keepsFlagOrRaises (fun _ v => v) a b s
  | add a b | sub a b | mul a b | and a b | or a b => exact twoOperand_keepsFlagOrRaises _ a b s
  | div a b => exact twoOperandChecked_keepsFlagOrRaises _ a b s
  | not a | inc a | dec a => exact oneOperand_keepsFlagOrRaises _ a s
  | cmp a b => exact absurd rfl (hi a b)
  | jmp l => exact branch_keepsFlagOrRaises Config.unknownLabelPolicy true l s
  | je l | jg l | jl l | jge l | jle l => exact branch_keepsFlagOrRaises Config.unknownLabelPolicy _ l s
  | print a =>
    rcases execPrint_cases a s with ⟨d, -, h⟩ | ⟨-, h⟩
    · exact .inl ⟨_, h, rfl, rfl, rfl⟩
    · exact .inr ⟨_, h⟩

/-- Every instruction ends in a next state: it completes with no fault taken, the image kept and the flag written by
CMP alone, or it takes one fault (R26, R115, R199). -/
theorem exec_cases (i : Instr) (s : State) :
    (∃ t, exec i s = .next t ∧ t.fault = s.fault ∧ t.image = s.image ∧ (t.flag ≠ s.flag → ∃ a b, i = .cmp a b)) ∨
    ∃ e, exec i s = .next (raised e s) := by
  by_cases hi : ∃ a b, i = .cmp a b
  · obtain ⟨a, b, rfl⟩ := hi
    rcases execCmp_cases a b s with ⟨u, v, -, -, h⟩ | ⟨e, h, -⟩
    · exact .inl ⟨_, h, rfl, rfl, fun _ => ⟨a, b, rfl⟩⟩
    · exact .inr ⟨e, h⟩
  · rcases exec_keepsFlagOrRaises (fun a b h => hi ⟨a, b, h⟩) s with ⟨t, h, hfault, hflag, himage⟩ | ⟨e, h⟩
    · exact .inl ⟨t, h, hfault, himage, fun hne => absurd hflag hne⟩
    · exact .inr ⟨e, h⟩

theorem exists_exec_eq_next (i : Instr) (s : State) : ∃ t, exec i s = .next t := by
  rcases exec_cases i s with ⟨t, h, -⟩ | ⟨e, h⟩
  · exact ⟨t, h⟩
  · exact ⟨_, h⟩

/-- A flag that an instruction changed was changed by CMP. -/
theorem exec_flag_ne {i : Instr} {s t : State} (h : exec i s = .next t) (hne : t.flag ≠ s.flag) :
    ∃ a b, i = .cmp a b := by
  rcases exec_cases i s with ⟨u, hu, -, -, hcmp⟩ | ⟨e, hu⟩
  · cases hu.symm.trans h
    exact hcmp hne
  · cases hu.symm.trans h
    exact absurd rfl hne

/-- A step that takes a fault is fault entry (R199). -/
theorem eq_raised_of_step_fault {s t : State} (h : step s = .next t) (hf : t.fault ≠ none) : ∃ e, t = raised e s := by
  rcases step_cases s with ⟨r, -, hs⟩ | ⟨-, -, hs⟩ | ⟨w, e, -, -, -, -, hs⟩ | ⟨w, i, hnone, -, -, -, hs⟩
  · cases hs.symm.trans h
  · cases hs.symm.trans h
  · cases hs.symm.trans h
    exact ⟨_, rfl⟩
  · rcases exec_cases i s with ⟨u, hu, hkeep, -⟩ | ⟨e, hu⟩
    · cases (hs.trans hu).symm.trans h
      exact absurd (hkeep.trans hnone) hf
    · cases (hs.trans hu).symm.trans h
      exact ⟨e, rfl⟩

/-! ### What does not read the flag (R26) -/

/-- With any other flag the same happens, and the flag is overwritten by the same value or left as it was. -/
def FlagUnread (m : State → Result) : Prop :=
  ∀ s, ∃ t, m s = .next t ∧
    ((∀ f, m (s.writeFlag f) = .next t) ∨ (t.flag = s.flag ∧ ∀ f, m (s.writeFlag f) = .next (t.writeFlag f)))

theorem valueof_writeFlag (o : Operand) (p : OperandPos) (s : State) (f : Word) :
    valueof o p (s.writeFlag f) = valueof o p s := rfl

/-- A step of state that commutes with writing the flag does not read it. -/
theorem flagUnread_of_commute {g : State → State} (hkeep : ∀ s, (g s).flag = s.flag)
    (hcomm : ∀ s f, g (s.writeFlag f) = (g s).writeFlag f) : FlagUnread fun s => .next (g s) :=
  fun s => ⟨g s, rfl, .inr ⟨hkeep s, fun f => congrArg _ (hcomm s f)⟩⟩

theorem raise_flagUnread (e : Failure) : FlagUnread (raise e) :=
  flagUnread_of_commute (fun _ => rfl) (fun _ _ => rfl)

/-- A check that does not read the flag, followed by what does not read it. -/
theorem andThen_flagUnread {α : Type} {check : State → Except Failure α} {k : α → State → Result}
    (hcheck : ∀ s f, check (s.writeFlag f) = check s) (hk : ∀ v, FlagUnread (k v)) :
    FlagUnread fun s => andThen (check s) s (k · s) := by
  intro s
  simp only [hcheck]
  cases check s with
  | ok v => exact hk v s
  | error e => exact raise_flagUnread e s

theorem twoOperandChecked_flagUnread (f : Word → Word → Except Failure Word) (a b : Operand) :
    FlagUnread (twoOperandChecked f a b) :=
  andThen_flagUnread (fun _ _ => rfl) fun d =>
    andThen_flagUnread (valueof_writeFlag b .second) fun v =>
      andThen_flagUnread (check := fun s => f (s.regs.get d) v) (fun _ _ => rfl) fun _ =>
        flagUnread_of_commute (fun _ => rfl) (fun _ _ => rfl)

theorem twoOperand_flagUnread (f : Word → Word → Word) (a b : Operand) : FlagUnread (twoOperand f a b) :=
  twoOperandChecked_flagUnread _ a b

theorem oneOperand_flagUnread (f : Word → Word) (a : Operand) : FlagUnread (oneOperand f a) :=
  andThen_flagUnread (fun _ _ => rfl) fun _ => flagUnread_of_commute (fun _ => rfl) (fun _ _ => rfl)

theorem execPrint_flagUnread (a : Operand) : FlagUnread (execPrint a) :=
  andThen_flagUnread (fun _ _ => rfl) fun _ => flagUnread_of_commute (fun _ => rfl) (fun _ _ => rfl)

/-- CMP overwrites the flag with a value that does not depend on it. -/
theorem execCmp_flagUnread (a b : Operand) : FlagUnread (execCmp a b) :=
  andThen_flagUnread (valueof_writeFlag a .first) fun _ =>
    andThen_flagUnread (valueof_writeFlag b .second) fun _ _ => ⟨_, rfl, .inl fun _ => rfl⟩

/-- JMP is taken whatever the flag is. -/
theorem execJmp_flagUnread (label : Nat) : FlagUnread (execJmp label) := by
  intro s
  simp only [execJmp, branch, State.writeFlag_image]
  cases s.image.resolve label with
  | some t => exact ⟨_, rfl, .inr ⟨rfl, fun _ => rfl⟩⟩
  | none => exact raise_flagUnread _ s

theorem exec_flagUnread {i : Instr} (hi : Claims.isConditionalJump i = false) : FlagUnread (exec i) := by
  cases i with
  | mov a b => exact twoOperand_flagUnread (fun _ v => v) a b
  | add a b | sub a b | mul a b | and a b | or a b => exact twoOperand_flagUnread _ a b
  | div a b => exact twoOperandChecked_flagUnread _ a b
  | not a | inc a | dec a => exact oneOperand_flagUnread _ a
  | cmp a b => exact execCmp_flagUnread a b
  | jmp l => exact execJmp_flagUnread l
  | je l | jg l | jl l | jge l | jle l => cases hi
  | print a => exact execPrint_flagUnread a

/-! ### The run status (R32) -/

theorem State.status_faulted_iff (s : State) : s.status = .faulted ↔ s.fault ≠ none := by
  rw [s.status_eq]; split_ifs <;> simp [*]

theorem State.status_halted_iff (s : State) : s.status = .halted ↔ s.fault = none ∧ s.image.len ≤ s.pc.toNat := by
  rw [s.status_eq]; split_ifs <;> simp [*]

theorem State.status_running_iff (s : State) : s.status = .running ↔ s.fault = none ∧ s.pc.toNat < s.image.len := by
  rw [s.status_eq]; split_ifs <;> simp_all

theorem State.endedNormally_iff (s : State) : s.endedNormally = true ↔ s.status = .halted := by
  simp [State.endedNormally, s.status_halted_iff]

/-- A step exists exactly where there is a word to fetch and no fault (R111). -/
theorem step_eq_next_iff (s : State) : (∃ t, step s = .next t) ↔ s.status = .running := by
  rw [s.status_running_iff]
  rcases step_cases s with ⟨r, hf, hs⟩ | ⟨-, hp, hs⟩ | ⟨w, e, hf, hp, -, -, hs⟩ | ⟨w, i, hf, hp, -, -, hs⟩
  · simp [hs, hf]
  · simp [hs, hp]
  · simp [hs, hf, hp]
  · simpa [hs, hf, hp] using exists_exec_eq_next i s

/-! ### Register tokens (R21, R71) -/

/-- `R` followed by digits is a register reference of the digits' decimal value. -/
theorem classify_register_token {ds : List Char} (h : isNumber ds = true) :
    classify ('R' :: ds) = .reg (decimalValue ds) := by simp [classify, h]

/-- A reference names a register, of its own number, exactly from 1 to 10. -/
theorem RegName.exists_ofNumber_iff (n : Nat) :
    (∃ r, RegName.ofNumber n = some r ∧ r.index = n) ↔ 1 ≤ n ∧ n ≤ 10 := by
  constructor
  · rintro ⟨r, -, rfl⟩
    exact r.index_bounds
  · intro hn
    obtain ⟨r, hr⟩ := Option.ne_none_iff_exists'.1 fun h => RegName.ofNumber_eq_none.1 h hn
    exact ⟨r, hr, RegName.ofNumber_eq_some hr⟩

end Sys2Proof.Machine

namespace Sys2Proof.Proofs

open Sys2Proof.Machine Sys2Proof.Claims

/-- Settles O8, from the register names' laws and the validation `getReg` and `setReg` share. -/
theorem registerReferencesValidate : Obligations.RegisterReferencesValidate :=
  ⟨RegName.exists_ofNumber_iff, fun _ p s v hn => ⟨getReg_invalid hn p s, setReg_invalid hn v p s⟩,
    fun _ h => classify_register_token h⟩

/-- Settles O43, from what each status says and what a step can do. -/
theorem onlyARunningCoreHasAStep : Obligations.OnlyARunningCoreHasAStep := fun s =>
  ⟨s.status_faulted_iff, s.status_halted_iff, s.status_running_iff, step_eq_next_iff s, s.endedNormally_iff⟩

/-- Settles O47: how an instruction can end says who writes the flag, `FlagUnread` who reads it. -/
theorem flagWrittenByCmpReadByConditionalJumps : Obligations.FlagWrittenByCmpReadByConditionalJumps := by
  refine ⟨fun i s t h => exec_flag_ne h, ?_, ?_, rfl⟩
  · intro i s t f hi h
    obtain ⟨t', ht', hu⟩ := exec_flagUnread hi s
    cases ht'.symm.trans h
    rcases hu with hsame | ⟨hkeep, hframe⟩
    · exact ⟨t, hsame f, rfl, .inl rfl⟩
    · exact ⟨t.writeFlag f, hframe f, rfl, .inr ⟨rfl, hkeep⟩⟩
  · intro s t h hf
    obtain ⟨e, rfl⟩ := eq_raised_of_step_fault h hf
    rfl

end Sys2Proof.Proofs
end

section
/-! SUPPORT. One step of the execution cycle: fetch and decode (R112), the checks in their order (R115) and the pc update
(R116). -/

namespace Sys2Proof.Machine

open Sys2Proof.Claims

/-! ### Fetch and decode (R112) -/

/-- A word that is no instruction takes its fault. -/
theorem step_of_decode_error {s : State} {w : InstrWord} {e : DecodeError} (hf : s.fault = none)
    (hw : s.image.imem[s.pc.toNat]? = some w) (hd : decode w = .error e) :
    step s = .next (raised (decodeFailure e) s) := by
  simp [step, State.fetchDecode_word hf hw, hd, raise_eq]

/-- A word that decodes is executed. -/
theorem step_of_decode_ok {s : State} {w : InstrWord} {i : Instr} (hf : s.fault = none)
    (hw : s.image.imem[s.pc.toNat]? = some w) (hd : decode w = .ok i) : step s = exec i s := by
  simp [step, State.fetchDecode_word hf hw, hd]

/-! ### The stated checks are the failures of the operations that make them (R113, R114) -/

@[simp] theorem firstFailure_nil : firstFailure [] = none := rfl

@[simp] theorem firstFailure_none_cons (cs : List (Option Failure)) :
    firstFailure (none :: cs) = firstFailure cs := rfl

@[simp] theorem firstFailure_some_cons (e : Failure) (cs : List (Option Failure)) :
    firstFailure (some e :: cs) = some e := rfl

/-- The failure of a check, if it fails. -/
def failureOf {α : Type} : Except Failure α → Option Failure
  | .ok _ => none
  | .error e => some e

@[simp] theorem failureOf_ok {α : Type} (v : α) : failureOf (.ok v : Except Failure α) = none := rfl

@[simp] theorem failureOf_error {α : Type} (e : Failure) :
    failureOf (.error e : Except Failure α) = some e := rfl

theorem destCheck_eq (a : Operand) : destCheck a = failureOf (dest a) := by
  cases a with
  | imm v => rfl
  | sym i => rfl
  | reg n =>
    rcases dest_cases (.reg n) with ⟨r, hr, hd⟩ | ⟨hno, hd⟩
    · cases hr
      simp [destCheck, r.index_bounds]
    · have hn : ¬ (1 ≤ n ∧ n ≤ 10) := fun h => by
        obtain ⟨r, -, rfl⟩ := (RegName.exists_ofNumber_iff n).2 h
        exact hno r rfl
      simp only [destCheck, if_neg hn, hd, failureOf_error]

theorem sourceCheck_eq (o : Operand) (p : OperandPos) (s : State) :
    sourceCheck o p = failureOf (valueof o p s) := by
  rcases valueof_cases o p s with ⟨v, rfl, h⟩ | ⟨r, rfl, h⟩ | ⟨n, rfl, hn, h⟩ | ⟨i, rfl, h⟩
  · rfl
  · simp [sourceCheck, r.index_bounds]
  · simp only [sourceCheck, if_neg hn, h, failureOf_error]
  · rfl

/-- The stated value of a source operand is the one the machine reads. -/
theorem sourceValue_of_valueof_ok {o : Operand} {p : OperandPos} {s : State} {v : Word} (h : valueof o p s = .ok v) :
    sourceValue s o = some v := by
  rcases valueof_cases o p s with ⟨u, rfl, hu⟩ | ⟨r, rfl, hu⟩ | ⟨n, -, -, hu⟩ | ⟨i, -, hu⟩ <;> cases hu.symm.trans h
  · rfl
  · simp [sourceValue]

/-- DIV's own check fails for a zero divisor alone (R139): the selected policy lets the overflow wrap. -/
theorem failureOf_divChecked (x v : Word) :
    failureOf (divChecked Config.divOverflow x v) = if v = 0 then some ⟨.divisionByZero, .second⟩ else none := by
  by_cases hv : v = 0
  · simp [divChecked, hv]
  · simp only [divChecked, if_neg hv]
    rfl

/-! ### An outcome decided by a list of checks (R115, R116) -/

/-- Where `pc` stands after an instruction that completes: at the label a taken jump goes to, else at the next
address (R116). -/
def PcAfter (s : State) (target : Option Nat) (pc : PcWord) : Prop :=
  match target with
  | some l => Resolves s l pc
  | none => pc = s.pc + 1

/-- The outcome `out` from `s` is decided by the checks `cs`: if none fails the instruction completes, with no fault
taken and `pc` where `target` puts it; otherwise the first failure is raised. -/
def DecidedBy (cs : List (Option Failure)) (target : Option Nat) (s : State) (out : Result) : Prop :=
  (firstFailure cs = none ∧ ∃ t, out = .next t ∧ t.fault = s.fault ∧ PcAfter s target t.pc) ∨
  ∃ e, firstFailure cs = some e ∧ out = .next (raised e s)

/-- With no check left, the instruction completes. -/
theorem decidedBy_nil {target : Option Nat} {s t : State} (hf : t.fault = s.fault) (hpc : PcAfter s target t.pc) :
    DecidedBy [] target s (.next t) := .inl ⟨rfl, t, rfl, hf, hpc⟩

/-- A check in front: its failure is the one reported, and if it passes the later checks decide. -/
theorem decidedBy_andThen {α : Type} {check : Except Failure α} {k : α → Result} {c : Option Failure}
    {cs : List (Option Failure)} {target : Option Nat} {s : State} (hc : c = failureOf check)
    (hk : ∀ v, check = .ok v → DecidedBy cs target s (k v)) :
    DecidedBy (c :: cs) target s (andThen check s k) := by
  subst hc
  cases check with
  | ok v => exact hk v rfl
  | error e => exact .inr ⟨e, rfl, rfl⟩

/-! ### The instructions -/

theorem twoOperand_decidedBy (f : Word → Word → Word) (a b : Operand) (s : State) :
    DecidedBy [destCheck a, sourceCheck b .second] none s (twoOperand f a b s) :=
  decidedBy_andThen (destCheck_eq a) fun _ _ =>
    decidedBy_andThen (sourceCheck_eq b .second s) fun _ _ => decidedBy_nil rfl rfl

theorem execDiv_decidedBy (a b : Operand) (s : State) :
    DecidedBy (checks s (.div a b)) none s (execDiv a b s) :=
  decidedBy_andThen (destCheck_eq a) fun d _ =>
    decidedBy_andThen (sourceCheck_eq b .second s) fun v hv =>
      decidedBy_andThen (by simp [failureOf_divChecked, sourceValue_of_valueof_ok hv]) fun _ _ => decidedBy_nil rfl rfl

theorem oneOperand_decidedBy (f : Word → Word) (a : Operand) (s : State) :
    DecidedBy [destCheck a] none s (oneOperand f a s) :=
  decidedBy_andThen (destCheck_eq a) fun _ _ => decidedBy_nil rfl rfl

theorem execCmp_decidedBy (a b : Operand) (s : State) :
    DecidedBy [sourceCheck a .first, sourceCheck b .second] none s (execCmp a b s) :=
  decidedBy_andThen (sourceCheck_eq a .first s) fun _ _ =>
    decidedBy_andThen (sourceCheck_eq b .second s) fun _ _ => decidedBy_nil rfl rfl

theorem execPrint_decidedBy (a : Operand) (s : State) : DecidedBy [destCheck a] none s (execPrint a s) :=
  decidedBy_andThen (destCheck_eq a) fun _ _ => decidedBy_nil rfl rfl

/-- The checks of a jump to `target`: the label is looked up only if there is one, that is if the jump is taken
(R178). -/
def jumpChecks (s : State) (target : Option Nat) : List (Option Failure) :=
  match target with
  | none => []
  | some l =>
    match s.image.labels[l]? with
    | some (some _) => [none]
    | _ => [some ⟨.unknownLabel, .first⟩]

theorem jumpChecks_of_resolve {s : State} {l : Nat} {t : PcWord} (h : s.image.resolve l = some t) :
    jumpChecks s (some l) = [none] := by
  simp [jumpChecks, Image.resolve_eq_some.1 h]

theorem jumpChecks_of_resolve_none {s : State} {l : Nat} (h : s.image.resolve l = none) :
    jumpChecks s (some l) = [some ⟨.unknownLabel, .first⟩] := by
  unfold jumpChecks
  split
  · cases ‹some l = none›
  · cases ‹some l = some _›
    split
    · exact absurd ‹_› (Image.resolve_eq_none.1 h _)
    · rfl

/-- The jump template under the policy `fault`, for a jump that goes to `target` if it is taken. -/
theorem branch_decidedBy {taken : Bool} {l : Nat} {target : Option Nat}
    (htarget : target = if taken then some l else none) (s : State) :
    DecidedBy (jumpChecks s target) target s (branch Config.unknownLabelPolicy taken l s) := by
  subst htarget
  rcases branch_cases Config.unknownLabelPolicy taken l s with
    ⟨t, rfl, hr, h⟩ | ⟨rfl, hr, -, h⟩ | ⟨rfl | ⟨-, -, hskip⟩, h⟩
  · refine .inl ⟨?_, _, h, rfl, Image.resolve_eq_some.1 hr⟩
    simp [jumpChecks_of_resolve hr]
  · refine .inr ⟨_, ?_, h⟩
    simp [jumpChecks_of_resolve_none hr]
  · exact .inl ⟨rfl, _, h, rfl, rfl⟩
  · cases hskip

/-- Every instruction is decided by its checks in the order of R115, and puts `pc` where R116 says. -/
theorem exec_decidedBy (i : Instr) (s : State) : DecidedBy (checks s i) (takenLabel s.flag i) s (exec i s) := by
  cases i with
  | mov a b => exact twoOperand_decidedBy (fun _ v => v) a b s
  | add a b | sub a b | mul a b | and a b | or a b => exact twoOperand_decidedBy _ a b s
  | div a b => exact execDiv_decidedBy a b s
  | not a | inc a | dec a => exact oneOperand_decidedBy _ a s
  | cmp a b => exact execCmp_decidedBy a b s
  | jmp l => exact branch_decidedBy (taken := true) (l := l) rfl s
  | je l | jg l | jl l | jge l | jle l => exact branch_decidedBy (by simp [takenLabel]) s
  | print a => exact execPrint_decidedBy a s

/-- On an image within its bounds the address after an instruction never wraps (R6, R116). -/
theorem State.pc_add_one_toNat {s : State} (hwf : s.image.wf = true) (hp : s.pc.toNat < s.image.len) :
    (s.pc + 1).toNat = s.pc.toNat + 1 := by
  have hlen : s.image.len ≤ 2 ^ 32 - 1 := (Image.wf_iff.1 hwf).1
  bv_omega

end Sys2Proof.Machine

namespace Sys2Proof.Proofs

open Sys2Proof.Machine Sys2Proof.Claims

/-- Settles O40, from what a step does with each answer of the decoder. -/
theorem fetchAndDecode : Obligations.FetchAndDecode := fun _ _ hf hw =>
  ⟨step_of_decode_error hf hw, step_of_decode_error hf hw, fun _ => step_of_decode_ok hf hw⟩

/-- Settles O41: the decoder's checks come first, then the instruction's own, which decide its outcome. -/
theorem firstFailingCheckIsReported : Obligations.FirstFailingCheckIsReported := by
  intro s w hf hw
  refine ⟨step_of_decode_error hf hw, step_of_decode_error hf hw, ?_, ?_⟩
  · intro i e hd hfail
    rw [step_of_decode_ok hf hw hd]
    rcases exec_decidedBy i s with ⟨hpass, -⟩ | ⟨e', hfail', hexec⟩
    · cases hpass.symm.trans hfail
    · cases hfail'.symm.trans hfail
      exact hexec
  · intro i hd hpass
    rw [step_of_decode_ok hf hw hd]
    rcases exec_decidedBy i s with ⟨-, t, hexec, hkeep, -⟩ | ⟨e, hfail, -⟩
    · exact ⟨t, hexec, hkeep.trans hf⟩
    · cases hpass.symm.trans hfail

/-- Settles O37: a step that faults is fault entry, which keeps `pc`; one that completes ran an instruction, which puts
`pc` where `PcAfter` says. -/
theorem pcUpdate : Obligations.PcUpdate := by
  intro s t hf h
  refine ⟨fun hfault => ?_, fun hnone => ?_⟩
  · obtain ⟨e, rfl⟩ := eq_raised_of_step_fault h hfault
    rfl
  · rcases step_cases s with ⟨r, -, hs⟩ | ⟨-, -, hs⟩ | ⟨w, e, -, -, -, -, hs⟩ | ⟨w, i, -, hp, hw, hd, hs⟩ <;>
      rw [hs] at h
    · cases h
    · cases h
    · cases h
      cases hnone
    · refine ⟨w, i, hw, hd, ?_⟩
      rcases exec_decidedBy i s with ⟨-, u, hu, -, hpc⟩ | ⟨e, -, hu⟩
      · cases hu.symm.trans h
        cases htarget : takenLabel s.flag i with
        | some l => simpa [PcAfter, htarget] using hpc
        | none =>
          have hnext : t.pc = s.pc + 1 := by simpa [PcAfter, htarget] using hpc
          exact ⟨hnext, fun hwf => hnext ▸ State.pc_add_one_toNat hwf hp⟩
      · cases hu.symm.trans h
        cases hnone

end Sys2Proof.Proofs
end

section
/-! SUPPORT. The two-operand rule from the template R135: what decides each of its outcomes, and MOV (R130). -/

namespace Sys2Proof.Machine

open Sys2Proof.Claims

/-! ### The operands of the statements, evaluated (R113, R114) -/

theorem valueof_of_reads {s : State} {o : Operand} {v : Word} (h : Reads s o v) (p : OperandPos) :
    valueof o p s = .ok v := by
  rcases h with rfl | ⟨r, rfl, rfl⟩
  · exact valueof_imm v p s
  · exact valueof_reg_index r p s

theorem dest_of_namesNoRegister {o : Operand} (h : NamesNoRegister o) :
    dest o = .error ⟨.invalidRegister, .first⟩ := dest_of_no_register h

/-! ### The template, by the answers of its checks (R115, R135) -/

section
variable {f : Word → Word → Except Failure Word} {a b : Operand} {s : State} {d : RegName} {v : Word} {e : Failure}

theorem twoOperandChecked_of_dest_error (hd : dest a = .error e) :
    twoOperandChecked f a b s = .next (raised e s) := by
  simp [twoOperandChecked, hd]

theorem twoOperandChecked_of_valueof_error (hd : dest a = .ok d) (hv : valueof b .second s = .error e) :
    twoOperandChecked f a b s = .next (raised e s) := by
  simp [twoOperandChecked, hd, hv]

theorem twoOperandChecked_of_ok (hd : dest a = .ok d) (hv : valueof b .second s = .ok v) :
    twoOperandChecked f a b s = andThen (f (s.regs.get d) v) s fun r => writeAndAdvance d r s := by
  simp [twoOperandChecked, hd, hv]

end

/-! ### The parts of the rule -/

theorem decodesTwo_of_decode_eq {opc : BitVec 8} {make : Operand → Operand → Instr}
    (h : ∀ w, opcField w = opc → decode w = decodeTwo make w) : DecodesTwo opc make := fun w a b hopc hrsv ha hb =>
  (h w hopc).trans (decodeTwo_eq_ok.2 ⟨a, b, hrsv, ha, hb, rfl⟩)

/-- Every instruction of the template has its operand faults, also one that makes a check of its own after them. -/
theorem destinationFaults_of_twoOperandChecked {make : Operand → Operand → Instr}
    {f : Word → Word → Except Failure Word} (h : ∀ a b s, exec (make a b) s = twoOperandChecked f a b s) :
    DestinationFaults make := by
  refine ⟨fun s a b ha => ?_, fun s r n hn => ?_, fun s r i => ?_⟩ <;> rw [h]
  · exact twoOperandChecked_of_dest_error (dest_of_namesNoRegister ha)
  · exact twoOperandChecked_of_valueof_error (dest_reg_index r) (valueof_reg_invalid hn .second s)
  · exact twoOperandChecked_of_valueof_error (dest_reg_index r) (valueof_sym i .second s)

theorem twoOperandRule_of_twoOperand {opc : BitVec 8} {make : Operand → Operand → Instr} {f : Word → Word → Word}
    (hdecode : ∀ w, opcField w = opc → decode w = decodeTwo make w)
    (hexec : ∀ a b s, exec (make a b) s = twoOperand f a b s) : TwoOperandRule opc make f := by
  refine ⟨decodesTwo_of_decode_eq hdecode, fun s r b v hb => ?_, destinationFaults_of_twoOperandChecked hexec⟩
  exact (hexec _ b s).trans (twoOperandChecked_of_ok (dest_reg_index r) (valueof_of_reads hb .second))

/-! ### MOV (R130) -/

theorem decode_of_opcField_mov {w : InstrWord} (h : opcField w = 0x01) : decode w = decodeTwo .mov w := by
  simp [decode, h]

/-- MOV is the template with the source's value as result. -/
theorem exec_mov_eq_twoOperand (a b : Operand) (s : State) : exec (.mov a b) s = twoOperand (fun _ v => v) a b s := rfl

end Sys2Proof.Machine

namespace Sys2Proof.Proofs

open Sys2Proof.Machine

/-- Settles O10: MOV is an instance of the two-operand template. -/
theorem movRule : Obligations.MovRule :=
  twoOperandRule_of_twoOperand (fun _ => decode_of_opcField_mov) exec_mov_eq_twoOperand

end Sys2Proof.Proofs
end

section
/-! SUPPORT. The arithmetic instructions: ADD, SUB, MUL and DIV by the two-operand template (R135 to R139), what INC,
DEC and CMP leave, and the wraparound they share (R142). -/

namespace Sys2Proof.Machine

open Sys2Proof.Claims

/-! ### The words of the four opcodes (R76, R77) -/

section
variable {w : InstrWord}

theorem decode_of_opcField_add (h : opcField w = 0x02) : decode w = decodeTwo .add w := by
  simp [decode, h]

theorem decode_of_opcField_sub (h : opcField w = 0x03) : decode w = decodeTwo .sub w := by
  simp [decode, h]

theorem decode_of_opcField_mul (h : opcField w = 0x04) : decode w = decodeTwo .mul w := by
  simp [decode, h]

theorem decode_of_opcField_div (h : opcField w = 0x05) : decode w = decodeTwo .div w := by
  simp [decode, h]

end

/-! ### The instructions as instances of their templates (R135) -/

section
variable (a b : Operand) (s : State)

theorem exec_add_eq_twoOperand : exec (.add a b) s = twoOperand aluAdd a b s := rfl

theorem exec_sub_eq_twoOperand : exec (.sub a b) s = twoOperand aluSub a b s := rfl

theorem exec_mul_eq_twoOperand : exec (.mul a b) s = twoOperand aluMul a b s := rfl

theorem exec_div_eq_twoOperandChecked :
    exec (.div a b) s = twoOperandChecked (divChecked Config.divOverflow) a b s := rfl

theorem exec_inc_eq_oneOperand : exec (.inc a) s = oneOperand aluInc a s := rfl

theorem exec_dec_eq_oneOperand : exec (.dec a) s = oneOperand aluDec a s := rfl

end

/-! ### The templates on operands that can be read (R113, R115, R135) -/

theorem reads_reg_index (s : State) (r : RegName) : Reads s (.reg r.index) (s.regs.get r) := .inr ⟨r, rfl, rfl⟩

/-- The template past its operand checks: what is left is the instruction's own check and the write. -/
theorem twoOperandChecked_of_reads (f : Word → Word → Except Failure Word) {s : State} (r : RegName) {b : Operand}
    {v : Word} (hb : Reads s b v) :
    twoOperandChecked f (.reg r.index) b s = andThen (f (s.regs.get r) v) s fun x => writeAndAdvance r x s :=
  twoOperandChecked_of_ok (dest_reg_index r) (valueof_of_reads hb .second)

theorem oneOperand_reg_index (f : Word → Word) (r : RegName) (s : State) :
    oneOperand f (.reg r.index) s = .next { s with regs := s.regs.set r (f (s.regs.get r)), pc := s.pc + 1 } := by
  rw [oneOperand, dest_reg_index, andThen_ok, writeAndAdvance_eq]

theorem exec_cmp_of_reads {s : State} {a b : Operand} {u v : Word} (ha : Reads s a u) (hb : Reads s b v) :
    exec (.cmp a b) s = .next { s with flag := compareFlag u v, pc := s.pc + 1 } := by
  rw [exec, execCmp, valueof_of_reads ha, andThen_ok, valueof_of_reads hb, andThen_ok]
  rfl

/-! ### DIV's own check under the selected policy (R139; log entry 7) -/

theorem divChecked_zero (x : Word) : divChecked Config.divOverflow x 0 = .error ⟨.divisionByZero, .second⟩ := rfl

theorem divChecked_of_ne_zero (x : Word) {v : Word} (hv : v ≠ 0) :
    divChecked Config.divOverflow x v = .ok (aluDiv x v) := if_neg hv

theorem exec_div_of_ne_zero {s : State} (r : RegName) {b : Operand} {v : Word} (hb : Reads s b v) (hv : v ≠ 0) :
    exec (.div (.reg r.index) b) s =
      .next { s with regs := s.regs.set r (aluDiv (s.regs.get r) v), pc := s.pc + 1 } := by
  rw [exec_div_eq_twoOperandChecked, twoOperandChecked_of_reads _ r hb, divChecked_of_ne_zero _ hv, andThen_ok,
    writeAndAdvance_eq]

theorem exec_div_of_zero {s : State} (r : RegName) {b : Operand} (hb : Reads s b 0) :
    exec (.div (.reg r.index) b) s = .next (faulted s .divisionByZero .second) := by
  rw [exec_div_eq_twoOperandChecked, twoOperandChecked_of_reads _ r hb, divChecked_zero, andThen_error]
  rfl

/-! ### The wrapped result is the operation on patterns modulo 2^32 (R142) -/

theorem toInt_wrap (z : Int) : (wrap z).toInt = z.bmod (2 ^ 32) := BitVec.toInt_ofInt z

section
variable (x v : Word)

theorem aluAdd_eq_add : aluAdd x v = x + v :=
  BitVec.eq_of_toInt_eq (by rw [aluAdd, toInt_wrap, BitVec.toInt_add])

theorem aluSub_eq_sub : aluSub x v = x - v :=
  BitVec.eq_of_toInt_eq (by rw [aluSub, toInt_wrap, BitVec.toInt_sub])

theorem aluMul_eq_mul : aluMul x v = x * v :=
  BitVec.eq_of_toInt_eq (by rw [aluMul, toInt_wrap, BitVec.toInt_mul])

theorem aluInc_eq_add_one : aluInc x = x + 1 := aluAdd_eq_add x 1

theorem aluDec_eq_sub_one : aluDec x = x - 1 := aluSub_eq_sub x 1

end

end Sys2Proof.Machine

namespace Sys2Proof.Proofs

open Sys2Proof.Machine

/-- Settles O11: ADD is an instance of the two-operand template. -/
theorem addRule : Obligations.AddRule :=
  twoOperandRule_of_twoOperand (fun _ => decode_of_opcField_add) exec_add_eq_twoOperand

/-- Settles O12: SUB is an instance of the two-operand template. -/
theorem subRule : Obligations.SubRule :=
  twoOperandRule_of_twoOperand (fun _ => decode_of_opcField_sub) exec_sub_eq_twoOperand

/-- Settles O13: MUL is an instance of the two-operand template. -/
theorem mulRule : Obligations.MulRule :=
  twoOperandRule_of_twoOperand (fun _ => decode_of_opcField_mul) exec_mul_eq_twoOperand

/-- Settles O14: DIV has the template's operand faults, and its own check splits on the divisor. -/
theorem divRule : Obligations.DivRule :=
  ⟨decodesTwo_of_decode_eq fun _ => decode_of_opcField_div,
    fun _ r _ _ hb hv => exec_div_of_ne_zero r hb hv,
    fun _ r _ hb => exec_div_of_zero r hb,
    destinationFaults_of_twoOperandChecked exec_div_eq_twoOperandChecked⟩

/-- Settles O28: the results the rules give are wrapped integers, and wrapping is the operation on patterns. -/
theorem arithmeticWrapsModuloTwoToXlen : Obligations.ArithmeticWrapsModuloTwoToXlen := by
  intro s r b v hb
  obtain ⟨-, hadd, -⟩ := addRule
  obtain ⟨-, hsub, -⟩ := subRule
  obtain ⟨-, hmul, -⟩ := mulRule
  have hinc := (exec_inc_eq_oneOperand (.reg r.index) s).trans (oneOperand_reg_index aluInc r s)
  have hdec := (exec_dec_eq_oneOperand (.reg r.index) s).trans (oneOperand_reg_index aluDec r s)
  have hcmp := exec_cmp_of_reads (reads_reg_index s r) hb
  refine ⟨?add, ?sub, ?mul, ?inc, ?dec, ?cmp, ?div⟩
  case add => exact ⟨_, hadd s r b v hb, aluAdd_eq_add _ v, toInt_wrap _⟩
  case sub => exact ⟨_, hsub s r b v hb, aluSub_eq_sub _ v, toInt_wrap _⟩
  case mul => exact ⟨_, hmul s r b v hb, aluMul_eq_mul _ v, toInt_wrap _⟩
  case inc => exact ⟨_, hinc, aluInc_eq_add_one _, toInt_wrap _⟩
  case dec => exact ⟨_, hdec, aluDec_eq_sub_one _, toInt_wrap _⟩
  case cmp => exact ⟨_, hcmp, aluSub_eq_sub _ v, toInt_wrap _⟩
  case div => exact fun hv => ⟨_, exec_div_of_ne_zero r hb hv⟩

end Sys2Proof.Proofs
end

section
/-! SUPPORT. The bitwise instructions: AND and OR by the two-operand template (R150, R151), the one-operand rule from its
pattern and NOT (R152), and what the operations do to patterns read as signed numbers (R153). -/

namespace Sys2Proof.Machine

open Sys2Proof.Claims

/-! ### The words of the three opcodes (R76, R77) -/

section
variable {w : InstrWord}

theorem decode_of_opcField_and (h : opcField w = 0x06) : decode w = decodeTwo .and w := by
  simp [decode, h]

theorem decode_of_opcField_or (h : opcField w = 0x07) : decode w = decodeTwo .or w := by
  simp [decode, h]

theorem decode_of_opcField_not (h : opcField w = 0x08) : decode w = decodeOne .not w := by
  simp [decode, h]

end

/-! ### The instructions as instances of their templates (R135, R152) -/

section
variable (a b : Operand) (s : State)

theorem exec_and_eq_twoOperand : exec (.and a b) s = twoOperand aluAnd a b s := rfl

theorem exec_or_eq_twoOperand : exec (.or a b) s = twoOperand aluOr a b s := rfl

theorem exec_not_eq_oneOperand : exec (.not a) s = oneOperand aluNot a s := rfl

end

/-! ### The parts of the one-operand rule -/

theorem decodesOne_of_decode_eq {opc : BitVec 8} {make : Operand → Instr}
    (h : ∀ w, opcField w = opc → decode w = decodeOne make w) : DecodesOne opc make := fun w a hopc hrsv hk2 hb ha =>
  (h w hopc).trans (decodeOne_eq_ok.2 ⟨a, hrsv, hk2, hb, ha, rfl⟩)

theorem oneOperand_of_dest_error (f : Word → Word) {a : Operand} {e : Failure} (hd : dest a = .error e) (s : State) :
    oneOperand f a s = .next (raised e s) := by
  rw [oneOperand, hd, andThen_error]

theorem oneOperandRule_of_oneOperand {opc : BitVec 8} {make : Operand → Instr} {f : Word → Word}
    (hdecode : ∀ w, opcField w = opc → decode w = decodeOne make w)
    (hexec : ∀ a s, exec (make a) s = oneOperand f a s) : OneOperandRule opc make f :=
  ⟨decodesOne_of_decode_eq hdecode,
    fun s r => (hexec _ s).trans (oneOperand_reg_index f r s),
    fun s a ha => (hexec a s).trans (oneOperand_of_dest_error f (dest_of_namesNoRegister ha) s)⟩

/-! ### Patterns read as signed numbers (R8, R153) -/

theorem toInt_allOnes : (BitVec.allOnes 32).toInt = -1 := BitVec.toInt_allOnes

/-- The value -1 is the pattern of all ones, and no other. -/
theorem eq_allOnes_of_toInt_eq_neg_one {v : Word} (h : v.toInt = -1) : v = BitVec.allOnes 32 :=
  BitVec.eq_of_toInt_eq (h.trans toInt_allOnes.symm)

theorem and_eq_self_of_toInt_eq_neg_one (x : Word) {v : Word} (h : v.toInt = -1) : x &&& v = x := by
  rw [eq_allOnes_of_toInt_eq_neg_one h, BitVec.and_allOnes]

theorem toInt_or_eq_neg_one (x : Word) {v : Word} (h : v.toInt = -1) : (x ||| v).toInt = -1 := by
  rw [eq_allOnes_of_toInt_eq_neg_one h, BitVec.or_allOnes, toInt_allOnes]

theorem getLsbD_not_of_lt (x : Word) {k : Nat} (hk : k < 32) : (~~~x).getLsbD k = !x.getLsbD k := by
  rw [BitVec.getLsbD_not, decide_eq_true hk, Bool.true_and]

/-- The complement exchanges the patterns p and 2^32 - 1 - p, of which exactly one stands for a negative number. -/
theorem toInt_not_eq_neg_sub_one (x : Word) : (~~~x).toInt = -x.toInt - 1 := by
  have hnot : (~~~x).toNat = 2 ^ 32 - 1 - x.toNat := BitVec.toNat_not
  have hlt : x.toNat < 2 ^ 32 := x.isLt
  rw [BitVec.toInt_eq_toNat_cond, BitVec.toInt_eq_toNat_cond, hnot]
  omega

end Sys2Proof.Machine

namespace Sys2Proof.Proofs

open Sys2Proof.Machine

/-- Settles O15: AND is an instance of the two-operand template. -/
theorem andRule : Obligations.AndRule :=
  twoOperandRule_of_twoOperand (fun _ => decode_of_opcField_and) exec_and_eq_twoOperand

/-- Settles O16: OR is an instance of the two-operand template. -/
theorem orRule : Obligations.OrRule :=
  twoOperandRule_of_twoOperand (fun _ => decode_of_opcField_or) exec_or_eq_twoOperand

/-- Settles O17: NOT is an instance of the one-operand pattern. -/
theorem notRule : Obligations.NotRule :=
  ⟨oneOperandRule_of_oneOperand (fun _ => decode_of_opcField_not) exec_not_eq_oneOperand,
    toInt_not_eq_neg_sub_one⟩

/-- Settles O29: the results the rules give are the bitwise operations on patterns, and -1 is the pattern of all
ones. -/
theorem bitwiseActsOnPatterns : Obligations.BitwiseActsOnPatterns := by
  intro s r b v hb
  obtain ⟨-, hand, -⟩ := andRule
  obtain ⟨-, hor, -⟩ := orRule
  obtain ⟨⟨-, hnot, -⟩, hneg⟩ := notRule
  refine ⟨?and, ?or, ?not⟩
  case and => exact ⟨_, hand s r b v hb, fun _ _ => BitVec.getLsbD_and, and_eq_self_of_toInt_eq_neg_one _⟩
  case or => exact ⟨_, hor s r b v hb, fun _ _ => BitVec.getLsbD_or, toInt_or_eq_neg_one _⟩
  case not => exact ⟨_, hnot s r, fun _ => getLsbD_not_of_lt _, hneg _⟩

end Sys2Proof.Proofs
end

section
/-! SUPPORT. The increment and the decrement, by the one-operand rule (R160, R161). -/

namespace Sys2Proof.Machine

/-! ### The words of the two opcodes (R76, R77) -/

section
variable {w : InstrWord}

theorem decode_of_opcField_inc (h : opcField w = 0x09) : decode w = decodeOne .inc w := by
  simp [decode, h]

theorem decode_of_opcField_dec (h : opcField w = 0x0A) : decode w = decodeOne .dec w := by
  simp [decode, h]

end

end Sys2Proof.Machine

namespace Sys2Proof.Proofs

open Sys2Proof.Machine

/-- Settles O18: INC is an instance of the one-operand pattern, its result the wrapped successor. -/
theorem incRule : Obligations.IncRule :=
  oneOperandRule_of_oneOperand (fun _ => decode_of_opcField_inc) exec_inc_eq_oneOperand

/-- Settles O19: DEC is an instance of the one-operand pattern, its result the wrapped predecessor. -/
theorem decRule : Obligations.DecRule :=
  oneOperandRule_of_oneOperand (fun _ => decode_of_opcField_dec) exec_dec_eq_oneOperand

end Sys2Proof.Proofs
end

section
/-! SUPPORT. The comparison: CMP's rule (R165), the sign of the flag it leaves (R166), and which conditional jumps fire on
it. -/

namespace Sys2Proof.Machine

open Sys2Proof.Claims

/-! ### CMP: its words, and its outcome by the answers of its two checks (R76, R77, R115, R165) -/

theorem decode_of_opcField_cmp {w : InstrWord} (h : opcField w = 0x0B) : decode w = decodeTwo .cmp w := by
  simp [decode, h]

section
variable {s : State} {a b : Operand} {u : Word} {e : Failure}

/-- The first operand's fault is taken whatever the second operand is. -/
theorem exec_cmp_of_first_error (ha : valueof a .first s = .error e) :
    exec (.cmp a b) s = .next (raised e s) := by
  rw [exec, execCmp, ha, andThen_error]

theorem exec_cmp_of_second_error (ha : Reads s a u) (hb : valueof b .second s = .error e) :
    exec (.cmp a b) s = .next (raised e s) := by
  rw [exec, execCmp, valueof_of_reads ha, andThen_ok, hb, andThen_error]

end

/-! ### The flag after CMP, as a signed number (R166) -/

section
variable (u v : Word)

theorem compareFlag_eq_zero_iff : compareFlag u v = 0 ↔ u = v := by
  rw [compareFlag, aluSub_eq_sub, sub_eq_zero]

theorem toInt_eq_zero_iff (f : Word) : f.toInt = 0 ↔ f = 0 := BitVec.toInt_inj (y := 0)

/-- The flag is the true difference where that fits; where it does not, wrapping gives it the opposite sign. -/
theorem toInt_compareFlag_cases :
    (DifferenceFits u v ∧ (compareFlag u v).toInt = u.toInt - v.toInt) ∨
    (¬ DifferenceFits u v ∧ u.toInt < v.toInt ∧ (compareFlag u v).toInt > 0) ∨
    (¬ DifferenceFits u v ∧ u.toInt > v.toInt ∧ (compareFlag u v).toInt < 0) := by
  have hflag : (compareFlag u v).toInt = (u.toInt - v.toInt).bmod (2 ^ 32) := toInt_wrap _
  have hu := u.toInt_lt
  have hu' := u.le_toInt
  have hv := v.toInt_lt
  have hv' := v.le_toInt
  rw [hflag, DifferenceFits, Int.bmod_def]
  omega

/-- A property that tells negative from positive numbers carries over from the true difference to the flag exactly when
the difference fits. -/
theorem compareFlag_agrees_iff {P : Int → Prop} (hP : ∀ x y, x < 0 → y > 0 → ¬ (P x ↔ P y)) :
    (P (compareFlag u v).toInt ↔ P (u.toInt - v.toInt)) ↔ DifferenceFits u v := by
  rcases toInt_compareFlag_cases u v with ⟨hfit, hflag⟩ | ⟨hfit, hlt, hpos⟩ | ⟨hfit, hgt, hneg⟩
  · exact iff_of_true (by rw [hflag]) hfit
  · exact iff_of_false (fun h => hP _ _ (Int.sub_neg_of_lt hlt) hpos h.symm) hfit
  · exact iff_of_false (hP _ _ hneg (Int.sub_pos_of_lt hgt)) hfit

theorem compareFlag_pos_agrees_iff :
    ((compareFlag u v).toInt > 0 ↔ u.toInt > v.toInt) ↔ DifferenceFits u v := by
  rw [← compareFlag_agrees_iff u v (P := (0 < ·)) (by omega), sub_pos]

theorem compareFlag_neg_agrees_iff :
    ((compareFlag u v).toInt < 0 ↔ u.toInt < v.toInt) ↔ DifferenceFits u v := by
  rw [← compareFlag_agrees_iff u v (P := (· < 0)) (by omega), sub_neg]

theorem compareFlag_nonneg_agrees_iff :
    ((compareFlag u v).toInt ≥ 0 ↔ u.toInt ≥ v.toInt) ↔ DifferenceFits u v := by
  rw [← compareFlag_agrees_iff u v (P := (0 ≤ ·)) (by omega), sub_nonneg]

theorem compareFlag_nonpos_agrees_iff :
    ((compareFlag u v).toInt ≤ 0 ↔ u.toInt ≤ v.toInt) ↔ DifferenceFits u v := by
  rw [← compareFlag_agrees_iff u v (P := (· ≤ 0)) (by omega), sub_nonpos]

end

section
variable {u v : Word} (hfit : ¬ DifferenceFits u v)
include hfit

theorem compareFlag_pos_of_not_fits (hlt : u.toInt < v.toInt) : (compareFlag u v).toInt > 0 := by
  rcases toInt_compareFlag_cases u v with ⟨h, -⟩ | ⟨-, -, hpos⟩ | ⟨-, hgt, -⟩
  · exact absurd h hfit
  · exact hpos
  · exact absurd hlt hgt.asymm

theorem compareFlag_neg_of_not_fits (hgt : u.toInt > v.toInt) : (compareFlag u v).toInt < 0 := by
  rcases toInt_compareFlag_cases u v with ⟨h, -⟩ | ⟨-, hlt, -⟩ | ⟨-, -, hneg⟩
  · exact absurd h hfit
  · exact absurd hgt hlt.asymm
  · exact hneg

end

/-! ### When a jump goes to its label (R172 to R177) -/

section
variable {s : State} {l : Nat} {p : PcWord} (hr : Resolves s l p) (hp : p ≠ s.pc + 1)
include hr hp

/-- An instruction of the jump template goes to a label away from the next address exactly if it is taken. -/
theorem jumpsTo_iff_of_exec_eq_branch {i : Instr} {taken : Bool}
    (hexec : exec i s = branch Config.unknownLabelPolicy taken l s) : JumpsTo i s p ↔ taken = true := by
  rw [JumpsTo, hexec]
  cases taken with
  | true => simp [branch, Image.resolve_eq_some.2 hr, State.jumpTo]
  | false => simpa [branch, State.advance] using hp.symm

theorem jumpsTo_je_iff : JumpsTo (.je l) s p ↔ s.flag.toInt = 0 :=
  (jumpsTo_iff_of_exec_eq_branch hr hp rfl).trans (flagZero_iff _)

theorem jumpsTo_jg_iff : JumpsTo (.jg l) s p ↔ s.flag.toInt > 0 :=
  (jumpsTo_iff_of_exec_eq_branch hr hp rfl).trans (flagPositive_iff _)

theorem jumpsTo_jl_iff : JumpsTo (.jl l) s p ↔ s.flag.toInt < 0 :=
  (jumpsTo_iff_of_exec_eq_branch hr hp rfl).trans (flagNegative_iff _)

theorem jumpsTo_jge_iff : JumpsTo (.jge l) s p ↔ s.flag.toInt ≥ 0 :=
  (jumpsTo_iff_of_exec_eq_branch hr hp rfl).trans (flagNonNegative_iff _)

theorem jumpsTo_jle_iff : JumpsTo (.jle l) s p ↔ s.flag.toInt ≤ 0 :=
  (jumpsTo_iff_of_exec_eq_branch hr hp rfl).trans (flagNonPositive_iff _)

end

end Sys2Proof.Machine

namespace Sys2Proof.Proofs

open Sys2Proof.Machine Sys2Proof.Claims

/-- Settles O20: both operands are evaluated as sources, the first one first. -/
theorem cmpRule : Obligations.CmpRule :=
  ⟨decodesTwo_of_decode_eq fun _ => decode_of_opcField_cmp,
    fun _ _ _ _ _ ha hb => exec_cmp_of_reads ha hb,
    fun s _ _ hn => exec_cmp_of_first_error (valueof_reg_invalid hn .first s),
    fun s i _ => exec_cmp_of_first_error (valueof_sym i .first s),
    fun s _ _ _ ha hn => exec_cmp_of_second_error ha (valueof_reg_invalid hn .second s),
    fun s _ _ i ha => exec_cmp_of_second_error ha (valueof_sym i .second s)⟩

/-- Settles O32: each jump follows the sign of the flag, which is the true difference's exactly when that fits. -/
theorem compareOverflowCorner : Obligations.CompareOverflowCorner := by
  intro s a b u v ha hb
  refine ⟨_, exec_cmp_of_reads ha hb, rfl, compareFlag_eq_zero_iff u v, fun l p hr hp => ?_⟩
  rw [jumpsTo_je_iff hr hp, jumpsTo_jg_iff hr hp, jumpsTo_jl_iff hr hp, jumpsTo_jge_iff hr hp, jumpsTo_jle_iff hr hp]
  refine ⟨?equal, compareFlag_pos_agrees_iff u v, compareFlag_neg_agrees_iff u v, compareFlag_nonneg_agrees_iff u v,
    compareFlag_nonpos_agrees_iff u v, fun hfit => ⟨fun hlt => ?less, fun hgt => ?greater⟩⟩
  case equal => exact (toInt_eq_zero_iff _).trans (compareFlag_eq_zero_iff u v)
  case less =>
    have hpos := compareFlag_pos_of_not_fits hfit hlt
    exact ⟨hpos, hpos.le⟩
  case greater =>
    have hneg := compareFlag_neg_of_not_fits hfit hgt
    exact ⟨hneg, hneg.le⟩

end Sys2Proof.Proofs
end

section
/-! SUPPORT. Label resolution (R170) and the six jumps by their template (R171 to R181). -/

namespace Sys2Proof.Machine

open Sys2Proof.Claims

/-! ### Label resolution (R6, R31, R170) -/

section
variable {im : Image} {i : Nat}

theorem Image.resolve_eq_none_of_nlab_le (h : im.nlab ≤ i) : im.resolve i = none :=
  Image.resolve_eq_none.2 fun t ht => by
    rw [List.getElem?_eq_none h] at ht
    cases ht

/-- A label's address is within the program or just past its end. -/
theorem Image.toNat_le_len_of_resolve {t : PcWord} (hwf : im.wf = true) (hr : im.resolve i = some t) :
    t.toNat ≤ im.len := by
  obtain ⟨-, -, hlabels⟩ := Image.wf_iff.1 hwf
  exact hlabels t (List.mem_of_getElem? (Image.resolve_eq_some.1 hr))

end

/-! ### The words of the six opcodes (R76, R77) -/

section
variable {w : InstrWord}

theorem decode_of_opcField_jmp (h : opcField w = 0x0C) : decode w = decodeJump .jmp w := by
  simp [decode, h]

theorem decode_of_opcField_je (h : opcField w = 0x0D) : decode w = decodeJump .je w := by
  simp [decode, h]

theorem decode_of_opcField_jg (h : opcField w = 0x0E) : decode w = decodeJump .jg w := by
  simp [decode, h]

theorem decode_of_opcField_jl (h : opcField w = 0x0F) : decode w = decodeJump .jl w := by
  simp [decode, h]

theorem decode_of_opcField_jge (h : opcField w = 0x10) : decode w = decodeJump .jge w := by
  simp [decode, h]

theorem decode_of_opcField_jle (h : opcField w = 0x11) : decode w = decodeJump .jle w := by
  simp [decode, h]

end

/-- The second byte of a jump's word, 0xC0, holds the kind of a label and two zero fields. -/
theorem jumpWord_eq_packWord (opc : BitVec 8) (l : Word) :
    opc ++ (0xC0 : BitVec 8) ++ l ++ (0 : Word) = packWord opc 3 0 0 l 0 := by
  have hbyte : (0xC0 : BitVec 8) = (3 : BitVec 2) ++ (0 : BitVec 2) ++ (0 : BitVec 4) := rfl
  have hhead : opc ++ ((3 : BitVec 2) ++ (0 : BitVec 2) ++ (0 : BitVec 4)) =
      opc ++ (3 : BitVec 2) ++ (0 : BitVec 2) ++ (0 : BitVec 4) := by simp only [BitVec.append_assoc, BitVec.cast_eq]
  rw [hbyte, packWord, hhead]

theorem decodesJump_of_decode_eq {opc : BitVec 8} {make : Nat → Instr}
    (h : ∀ w, opcField w = opc → decode w = decodeJump make w) : DecodesJump opc make := by
  intro l
  rw [jumpWord_eq_packWord, h _ (opcField_packWord ..), decodeJump_eq_ok]
  simp

/-! ### The template, by the predicate and the label (R177, R178) -/

section
variable {policy : Config.UnknownLabelPolicy} {s : State} {l : Nat}

theorem branch_of_not_taken : branch policy false l s = .next { s with pc := s.pc + 1 } := rfl

/-- To a declared label no policy matters. -/
theorem branch_of_resolves {t : PcWord} (hr : Resolves s l t) : branch policy true l s = .next { s with pc := t } := by
  simp [branch, Image.resolve_eq_some.2 hr, State.jumpTo]

theorem branch_fault_of_unresolved (hu : Unresolved s l) :
    branch .fault true l s = .next (faulted s .unknownLabel .first) := by
  simp [branch, Image.resolve_eq_none.2 hu, raise_eq, faulted]

theorem branch_skip_of_unresolved (hu : Unresolved s l) :
    branch .skip true l s = .next { s with pc := s.pc + 1 } := by
  simp [branch, Image.resolve_eq_none.2 hu, State.advance]

end

/-! ### The parts of the rules -/

theorem conditionalJumpRule_of_branch {opc : BitVec 8} {make : Nat → Instr} {test : Word → Bool} {cond : Word → Prop}
    (hdecode : ∀ w, opcField w = opc → decode w = decodeJump make w)
    (hexec : ∀ l s, exec (make l) s = branch Config.unknownLabelPolicy (test s.flag) l s)
    (htest : ∀ f, test f = true ↔ cond f) : ConditionalJumpRule opc make cond := by
  refine ⟨decodesJump_of_decode_eq hdecode, fun s l t hc hr => ?_, fun s l hc hu => ?_, fun s l hc => ?_⟩
  · rw [hexec, (htest _).2 hc, branch_of_resolves hr]
  · rw [hexec, (htest _).2 hc]
    exact branch_fault_of_unresolved hu
  · rw [hexec, Bool.eq_false_iff.2 (mt (htest _).1 hc), branch_of_not_taken]

/-- A jump that goes to a label is the template with its predicate met. -/
theorem exec_eq_branch_of_takenLabel {i : Instr} {s : State} {l : Nat} (h : takenLabel s.flag i = some l) :
    exec i s = branch Config.unknownLabelPolicy true l s := by
  have htaken {taken : Bool} {m : Nat} (hm : taken = true ∧ m = l) :
      branch Config.unknownLabelPolicy taken m s = branch Config.unknownLabelPolicy true l s := by
    obtain ⟨rfl, rfl⟩ := hm
    rfl
  cases i with
  | jmp m => exact htaken ⟨rfl, Option.some.inj h⟩
  | je m | jg m | jl m | jge m | jle m => exact htaken (by simpa [takenLabel] using h)
  | mov | add | sub | mul | div | and | or | cmp | not | inc | dec | print => cases h

end Sys2Proof.Machine

namespace Sys2Proof.Proofs

open Sys2Proof.Machine Sys2Proof.Claims

/-- Settles O21: JMP is the template with its predicate always met. -/
theorem jmpRule : Obligations.JmpRule :=
  ⟨decodesJump_of_decode_eq fun _ => decode_of_opcField_jmp,
    fun _ _ _ hr => (exec_eq_branch_of_takenLabel rfl).trans (branch_of_resolves hr),
    fun _ _ hu => (exec_eq_branch_of_takenLabel rfl).trans (branch_fault_of_unresolved hu)⟩

/-- Settles O22: JE is an instance of the template. -/
theorem jeRule : Obligations.JeRule :=
  conditionalJumpRule_of_branch (fun _ => decode_of_opcField_je) (fun _ _ => rfl) flagZero_iff

/-- Settles O23: JG is an instance of the template. -/
theorem jgRule : Obligations.JgRule :=
  conditionalJumpRule_of_branch (fun _ => decode_of_opcField_jg) (fun _ _ => rfl) flagPositive_iff

/-- Settles O24: JL is an instance of the template. -/
theorem jlRule : Obligations.JlRule :=
  conditionalJumpRule_of_branch (fun _ => decode_of_opcField_jl) (fun _ _ => rfl) flagNegative_iff

/-- Settles O25: JGE is an instance of the template. -/
theorem jgeRule : Obligations.JgeRule :=
  conditionalJumpRule_of_branch (fun _ => decode_of_opcField_jge) (fun _ _ => rfl) flagNonNegative_iff

/-- Settles O26: JLE is an instance of the template. -/
theorem jleRule : Obligations.JleRule :=
  conditionalJumpRule_of_branch (fun _ => decode_of_opcField_jle) (fun _ _ => rfl) flagNonPositive_iff

/-- Settles O34: the rule of each jump, at each sign of the flag. -/
theorem jumpOutcomeTable : Obligations.JumpOutcomeTable := by
  intro s l t hr
  obtain ⟨-, hjmp, -⟩ := jmpRule
  obtain ⟨-, hje, -, hjeNot⟩ := jeRule
  obtain ⟨-, hjg, -, hjgNot⟩ := jgRule
  obtain ⟨-, hjl, -, hjlNot⟩ := jlRule
  obtain ⟨-, hjge, -, hjgeNot⟩ := jgeRule
  obtain ⟨-, hjle, -, hjleNot⟩ := jleRule
  refine ⟨fun hneg => ?negative, fun hzero => ?zero, fun hpos => ?positive⟩
  case negative =>
    exact ⟨hjmp s l t hr, hjeNot s l hneg.ne, hjgNot s l hneg.not_gt, hjl s l t hneg hr, hjgeNot s l hneg.not_ge,
      hjle s l t hneg.le hr⟩
  case zero =>
    exact ⟨hjmp s l t hr, hje s l t hzero hr, hjgNot s l hzero.not_gt, hjlNot s l hzero.not_lt,
      hjge s l t hzero.ge hr, hjle s l t hzero.le hr⟩
  case positive =>
    exact ⟨hjmp s l t hr, hjeNot s l hpos.ne', hjg s l t hpos hr, hjlNot s l hpos.not_gt, hjge s l t hpos.le hr,
      hjleNot s l hpos.not_ge⟩

/-- Settles O35: the policy is looked at only where the predicate is met and the label is not declared. -/
theorem unresolvedLabelPolicies : Obligations.UnresolvedLabelPolicies := by
  refine ⟨rfl, fun s i l htaken hu => ⟨?_, branch_skip_of_unresolved hu⟩, fun s taken l h => ?_⟩
  · exact (exec_eq_branch_of_takenLabel htaken).trans (branch_fault_of_unresolved hu)
  · cases taken with
    | false => rfl
    | true =>
      obtain ⟨t, hr⟩ := not_forall_not.1 fun hu => h ⟨rfl, hu⟩
      rw [branch_of_resolves hr, branch_of_resolves hr]

/-- Settles O33, from what `resolve` answers and the bounds of a well-formed image. -/
theorem labelResolution : Obligations.LabelResolution := fun _ _ =>
  ⟨fun _ => Image.resolve_eq_some, Image.resolve_eq_none_of_nlab_le, fun hwf _ => Image.toNat_le_len_of_resolve hwf⟩

end Sys2Proof.Proofs
end

section
/-! SUPPORT. PRINT: its words, and its outcome by the answer of its one check (R185). -/

namespace Sys2Proof.Machine

open Sys2Proof.Claims

theorem decode_of_opcField_print {w : InstrWord} (h : opcField w = 0x12) : decode w = decodeOne .print w := by
  simp [decode, h]

theorem exec_print_reg_index (r : RegName) (s : State) :
    exec (.print (.reg r.index)) s =
      .next { s with output := s.output ++ [⟨r, s.regs.get r⟩], pc := s.pc + 1 } := by
  rw [exec, execPrint, dest_reg_index, andThen_ok]
  rfl

theorem exec_print_of_namesNoRegister {a : Operand} (ha : NamesNoRegister a) (s : State) :
    exec (.print a) s = .next (faulted s .invalidRegister .first) := by
  rw [exec, execPrint, dest_of_namesNoRegister ha, andThen_error]
  rfl

end Sys2Proof.Machine

namespace Sys2Proof.Proofs

open Sys2Proof.Machine

/-- Settles O27: PRINT decodes as a one-operand instruction, and its destination check decides between the record and
the fault. -/
theorem printRule : Obligations.PrintRule :=
  ⟨decodesOne_of_decode_eq fun _ => decode_of_opcField_print,
    fun s r => exec_print_reg_index r s,
    fun s _ ha => exec_print_of_namesNoRegister ha s⟩

end Sys2Proof.Proofs
end

section
/-! SUPPORT. Fault entry: how a step that faults ends, and that no step follows it (R111, R199). -/

namespace Sys2Proof.Machine

/-- A step that takes a fault raises it, whichever check failed. -/
theorem step_eq_raise_of_fault {s t : State} (h : step s = .next t) (hf : t.fault ≠ none) :
    ∃ e, step s = raise e s ∧ t.fault = some ⟨e.code, s.pc, e.opnd⟩ := by
  obtain ⟨e, rfl⟩ := eq_raised_of_step_fault h hf
  exact ⟨e, h.trans (raise_eq e s).symm, rfl⟩

theorem step_ne_next_of_status_faulted {t : State} (h : t.status = .faulted) (u : State) : step t ≠ .next u := by
  intro hu
  have hrunning : t.status = .running := (step_eq_next_iff t).1 ⟨u, hu⟩
  cases h.symm.trans hrunning

end Sys2Proof.Machine

namespace Sys2Proof.Proofs

open Sys2Proof.Machine

/-- Settles O42: a step that faults is fault entry, and the record it leaves makes the status Faulted, from which the
core has no step. -/
theorem faultEntryWritesOnlyTheRecord : Obligations.FaultEntryWritesOnlyTheRecord := by
  refine ⟨fun s code opnd => raise_eq ⟨code, opnd⟩ s, fun s t h hf => ?_⟩
  have hstatus : t.status = .faulted := t.status_faulted_iff.2 hf
  exact ⟨step_eq_raise_of_fault h hf, hstatus, step_ne_next_of_status_faulted hstatus⟩

end Sys2Proof.Proofs
end

section
/-! SUPPORT. Reset: the status it leaves, by the length of the program it keeps (R220). -/

namespace Sys2Proof.Machine

theorem State.applyReset_status_running_iff (s : State) : s.applyReset.status = .running ↔ 0 < s.image.len := by
  simp [State.status_running_iff]

theorem State.applyReset_status_halted_iff (s : State) : s.applyReset.status = .halted ↔ s.image.len = 0 := by
  simp [State.status_halted_iff]

end Sys2Proof.Machine

namespace Sys2Proof.Proofs

open Sys2Proof.Machine

/-- Settles O52: the fields reset leaves by their own laws, the status by the length of the image kept. -/
theorem resetLeaves : Obligations.ResetLeaves := fun s =>
  ⟨RegFile.get_zero, s.applyReset_flag, s.applyReset_pc, s.applyReset_fault, s.applyReset_output, s.applyReset_image,
    s.applyReset_status_running_iff.2, s.applyReset_status_halted_iff.2, rfl⟩

end Sys2Proof.Proofs
end

section
/-! SUPPORT. The decoder and the encoder as inverses (R73 to R78), the three cases of the decoder by the class of the
opcode (R77), the match-and-mask table (R89) and serialised words (R52). -/

namespace Sys2Proof.Machine

open Sys2Proof.Claims

/-! ### From an instruction to its word and back -/

theorem decode_packWord_of_decodesTwo {opc : BitVec 8} {make : Operand → Operand → Instr} {a b : Operand}
    (h : DecodesTwo opc make) (hwf : (a.wellFormed && b.wellFormed) = true) :
    decode (packWord opc a.kindCode b.kindCode 0 a.payload b.payload) = .ok (make a b) := by
  obtain ⟨ha, hb⟩ := Bool.and_eq_true_iff.1 hwf
  exact h _ a b (by simp) (by simp) (by simp [operandOf_kindCode_payload ha]) (by simp [operandOf_kindCode_payload hb])

theorem decode_packWord_of_decodesOne {opc : BitVec 8} {make : Operand → Instr} {a : Operand}
    (h : DecodesOne opc make) (hwf : a.wellFormed = true) :
    decode (packWord opc a.kindCode 0 0 a.payload 0) = .ok (make a) :=
  h _ a (by simp) (by simp) (by simp) (by simp) (by simp [operandOf_kindCode_payload hwf])

theorem decode_packWord_of_decodesJump {opc : BitVec 8} {make : Nat → Instr} {l : Nat}
    (h : DecodesJump opc make) (hwf : decide (l < 2 ^ 32) = true) :
    decode (packWord opc 3 0 0 (BitVec.ofNat 32 l) 0) = .ok (make l) := by
  rw [← jumpWord_eq_packWord, h, BitVec.toNat_ofNat, Nat.mod_eq_of_lt (of_decide_eq_true hwf)]

open Sys2Proof.Proofs in
theorem decode_encode {i : Instr} (h : i.wellFormed = true) : decode (encode i) = .ok i := by
  cases i with
  | mov a b => exact decode_packWord_of_decodesTwo movRule.1 h
  | add a b => exact decode_packWord_of_decodesTwo addRule.1 h
  | sub a b => exact decode_packWord_of_decodesTwo subRule.1 h
  | mul a b => exact decode_packWord_of_decodesTwo mulRule.1 h
  | div a b => exact decode_packWord_of_decodesTwo divRule.1 h
  | and a b => exact decode_packWord_of_decodesTwo andRule.1 h
  | or a b => exact decode_packWord_of_decodesTwo orRule.1 h
  | not a => exact decode_packWord_of_decodesOne notRule.1.1 h
  | inc a => exact decode_packWord_of_decodesOne incRule.1 h
  | dec a => exact decode_packWord_of_decodesOne decRule.1 h
  | cmp a b => exact decode_packWord_of_decodesTwo cmpRule.1 h
  | jmp l => exact decode_packWord_of_decodesJump jmpRule.1 h
  | je l => exact decode_packWord_of_decodesJump jeRule.1 h
  | jg l => exact decode_packWord_of_decodesJump jgRule.1 h
  | jl l => exact decode_packWord_of_decodesJump jlRule.1 h
  | jge l => exact decode_packWord_of_decodesJump jgeRule.1 h
  | jle l => exact decode_packWord_of_decodesJump jleRule.1 h
  | print a => exact decode_packWord_of_decodesOne printRule.1 h

/-! ### The class of an opcode decides what its words decode to (R77, R78) -/

/-- The fields of a word of a known opcode are those its class allows (the table of R77). -/
def FieldsFit (sh : Shape) (w : InstrWord) : Prop :=
  rsvField w = 0 ∧
    match sh with
    | .two => k1Field w ≠ 0 ∧ k2Field w ≠ 0
    | .one => k1Field w ≠ 0 ∧ k2Field w = 0 ∧ bField w = 0
    | .jump => k1Field w = 3 ∧ k2Field w = 0 ∧ bField w = 0

section
variable {w : InstrWord}

theorem fieldsFit_two : FieldsFit .two w ↔ rsvField w = 0 ∧ k1Field w ≠ 0 ∧ k2Field w ≠ 0 := Iff.rfl

theorem fieldsFit_one : FieldsFit .one w ↔ rsvField w = 0 ∧ k1Field w ≠ 0 ∧ k2Field w = 0 ∧ bField w = 0 := Iff.rfl

theorem fieldsFit_jump : FieldsFit .jump w ↔ rsvField w = 0 ∧ k1Field w = 3 ∧ k2Field w = 0 ∧ bField w = 0 := Iff.rfl

end

/-- The fields of the word are the opcode number and the operands of the instruction, and no other bit is set. -/
structure FieldsOf (w : InstrWord) (i : Instr) : Prop where
  opcode : i.opcode = opcField w
  rsv : rsvField w = 0
  first : operandOf (k1Field w) (aField w) = some i.first
  second : operandOf (k2Field w) (bField w) = i.second
  absent : i.second = none → bField w = 0

/-- How a word is decoded whose opcode number has class `sh`: by that class's decoder, into an instruction of that
opcode number with the operands it is given. -/
inductive DecodedAs (w : InstrWord) : Shape → Prop
  | two (make : Operand → Operand → Instr) (hdecode : decode w = decodeTwo make w)
      (hmake : ∀ a b, (make a b).opcode = opcField w ∧ (make a b).first = a ∧ (make a b).second = some b) :
      DecodedAs w .two
  | one (make : Operand → Instr) (hdecode : decode w = decodeOne make w)
      (hmake : ∀ a, (make a).opcode = opcField w ∧ (make a).first = a ∧ (make a).second = none) : DecodedAs w .one
  | jump (make : Nat → Instr) (hdecode : decode w = decodeJump make w)
      (hmake : ∀ l, (make l).opcode = opcField w ∧ (make l).first = .sym l ∧ (make l).second = none) :
      DecodedAs w .jump

theorem decodedAs_of_row {w : InstrWord} {row : OpcodeRow} (hrow : row ∈ opcodeTable) (hopc : row.opc = opcField w) :
    DecodedAs w row.shape := by
  simp only [opcodeTable, List.mem_cons, List.not_mem_nil, or_false] at hrow
  rcases hrow with rfl | rfl | rfl | rfl | rfl | rfl | rfl | rfl | rfl | rfl | rfl | rfl | rfl | rfl | rfl | rfl |
    rfl | rfl
  · exact .two .mov (decode_of_opcField_mov hopc.symm) fun _ _ => ⟨hopc, rfl, rfl⟩
  · exact .two .add (decode_of_opcField_add hopc.symm) fun _ _ => ⟨hopc, rfl, rfl⟩
  · exact .two .sub (decode_of_opcField_sub hopc.symm) fun _ _ => ⟨hopc, rfl, rfl⟩
  · exact .two .mul (decode_of_opcField_mul hopc.symm) fun _ _ => ⟨hopc, rfl, rfl⟩
  · exact .two .div (decode_of_opcField_div hopc.symm) fun _ _ => ⟨hopc, rfl, rfl⟩
  · exact .two .and (decode_of_opcField_and hopc.symm) fun _ _ => ⟨hopc, rfl, rfl⟩
  · exact .two .or (decode_of_opcField_or hopc.symm) fun _ _ => ⟨hopc, rfl, rfl⟩
  · exact .one .not (decode_of_opcField_not hopc.symm) fun _ => ⟨hopc, rfl, rfl⟩
  · exact .one .inc (decode_of_opcField_inc hopc.symm) fun _ => ⟨hopc, rfl, rfl⟩
  · exact .one .dec (decode_of_opcField_dec hopc.symm) fun _ => ⟨hopc, rfl, rfl⟩
  · exact .two .cmp (decode_of_opcField_cmp hopc.symm) fun _ _ => ⟨hopc, rfl, rfl⟩
  · exact .jump .jmp (decode_of_opcField_jmp hopc.symm) fun _ => ⟨hopc, rfl, rfl⟩
  · exact .jump .je (decode_of_opcField_je hopc.symm) fun _ => ⟨hopc, rfl, rfl⟩
  · exact .jump .jg (decode_of_opcField_jg hopc.symm) fun _ => ⟨hopc, rfl, rfl⟩
  · exact .jump .jl (decode_of_opcField_jl hopc.symm) fun _ => ⟨hopc, rfl, rfl⟩
  · exact .jump .jge (decode_of_opcField_jge hopc.symm) fun _ => ⟨hopc, rfl, rfl⟩
  · exact .jump .jle (decode_of_opcField_jle hopc.symm) fun _ => ⟨hopc, rfl, rfl⟩
  · exact .one .print (decode_of_opcField_print hopc.symm) fun _ => ⟨hopc, rfl, rfl⟩

/-! ### What each class's decoder answers -/

theorem exists_operandOf {k : BitVec 2} (p : Word) (h : k ≠ 0) : ∃ o, operandOf k p = some o :=
  Option.ne_none_iff_exists'.1 (mt operandOf_eq_none.1 h)

theorem kind_ne_zero_of_operandOf {k : BitVec 2} {p : Word} {o : Operand} (h : operandOf k p = some o) : k ≠ 0 :=
  mt (operandOf_eq_none (p := p)).2 (by simp [h])

/-- A class's decoder answers an instruction of the word's fields where the fields fit, `MALFORMED` where they do
not. -/
def AnswersByClass (sh : Shape) (w : InstrWord) (out : Except DecodeError Instr) : Prop :=
  (FieldsFit sh w ∧ ∃ i, out = .ok i ∧ FieldsOf w i) ∨ (¬ FieldsFit sh w ∧ out = .error .malformedInstruction)

theorem decodeTwo_answersByClass {make : Operand → Operand → Instr} {w : InstrWord}
    (hmake : ∀ a b, (make a b).opcode = opcField w ∧ (make a b).first = a ∧ (make a b).second = some b) :
    AnswersByClass .two w (decodeTwo make w) := by
  by_cases hfit : FieldsFit .two w
  · obtain ⟨hrsv, hk1, hk2⟩ := fieldsFit_two.1 hfit
    obtain ⟨a, ha⟩ := exists_operandOf (aField w) hk1
    obtain ⟨b, hb⟩ := exists_operandOf (bField w) hk2
    obtain ⟨hopc, hfirst, hsecond⟩ := hmake a b
    exact .inl ⟨hfit, make a b, decodeTwo_eq_ok.2 ⟨a, b, hrsv, ha, hb, rfl⟩,
      ⟨hopc, hrsv, by rw [ha, hfirst], by rw [hb, hsecond], by simp [hsecond]⟩⟩
  · refine .inr ⟨hfit, ?_⟩
    unfold decodeTwo
    split
    · split
      · exact absurd ⟨‹_›, kind_ne_zero_of_operandOf ‹_›, kind_ne_zero_of_operandOf ‹_›⟩ hfit
      · rfl
    · rfl

theorem decodeOne_answersByClass {make : Operand → Instr} {w : InstrWord}
    (hmake : ∀ a, (make a).opcode = opcField w ∧ (make a).first = a ∧ (make a).second = none) :
    AnswersByClass .one w (decodeOne make w) := by
  by_cases hfit : FieldsFit .one w
  · obtain ⟨hrsv, hk1, hk2, hb⟩ := fieldsFit_one.1 hfit
    obtain ⟨a, ha⟩ := exists_operandOf (aField w) hk1
    obtain ⟨hopc, hfirst, hsecond⟩ := hmake a
    exact .inl ⟨hfit, make a, decodeOne_eq_ok.2 ⟨a, hrsv, hk2, hb, ha, rfl⟩,
      ⟨hopc, hrsv, by rw [ha, hfirst], by rw [hsecond, operandOf_eq_none.2 hk2], fun _ => hb⟩⟩
  · refine .inr ⟨hfit, ?_⟩
    unfold decodeOne
    split
    · rename_i hfields
      split
      · exact absurd ⟨hfields.1, kind_ne_zero_of_operandOf ‹_›, hfields.2⟩ hfit
      · rfl
    · rfl

theorem decodeJump_answersByClass {make : Nat → Instr} {w : InstrWord}
    (hmake : ∀ l, (make l).opcode = opcField w ∧ (make l).first = .sym l ∧ (make l).second = none) :
    AnswersByClass .jump w (decodeJump make w) := by
  by_cases hfit : FieldsFit .jump w
  · obtain ⟨hrsv, hk1, hk2, hb⟩ := fieldsFit_jump.1 hfit
    obtain ⟨hopc, hfirst, hsecond⟩ := hmake (aField w).toNat
    exact .inl ⟨hfit, _, decodeJump_eq_ok.2 ⟨hrsv, hk1, hk2, hb, rfl⟩,
      ⟨hopc, hrsv, by rw [hk1, hfirst]; rfl, by rw [hsecond, operandOf_eq_none.2 hk2], fun _ => hb⟩⟩
  · exact .inr ⟨hfit, if_neg hfit⟩

theorem decode_answersByClass {w : InstrWord} {row : OpcodeRow} (hrow : row ∈ opcodeTable)
    (hopc : row.opc = opcField w) : AnswersByClass row.shape w (decode w) := by
  have h := decodedAs_of_row hrow hopc
  generalize row.shape = sh at h ⊢
  cases h with
  | two make hdecode hmake => exact hdecode ▸ decodeTwo_answersByClass hmake
  | one make hdecode hmake => exact hdecode ▸ decodeOne_answersByClass hmake
  | jump make hdecode hmake => exact hdecode ▸ decodeJump_answersByClass hmake

/-! ### The opcode numbers of the table (R76) -/

/-- The opcode number is one of 0x01..0x12. -/
def KnownOpcode (opc : BitVec 8) : Prop := 1 ≤ opc.toNat ∧ opc.toNat ≤ 18

theorem exists_row_of_knownOpcode {opc : BitVec 8} (h : KnownOpcode opc) : ∃ row ∈ opcodeTable, row.opc = opc := by
  have htable : ∀ n : Fin 19, 1 ≤ n.val → ∃ row ∈ opcodeTable, row.opc = BitVec.ofNat 8 n := by decide
  obtain ⟨row, hrow, hopc⟩ := htable ⟨opc.toNat, Nat.lt_succ_of_le h.2⟩ h.1
  exact ⟨row, hrow, by simpa using hopc⟩

theorem decode_of_not_knownOpcode {w : InstrWord} (h : ¬ KnownOpcode (opcField w)) :
    decode w = .error .unknownOpcode := by
  unfold decode
  split
  case h_19 => rfl
  all_goals exact absurd (by unfold KnownOpcode; omega) h

/-- The three cases of the decoder: an unknown opcode, or the answer of the class of the opcode's row. -/
theorem decode_cases (w : InstrWord) :
    (¬ KnownOpcode (opcField w) ∧ decode w = .error .unknownOpcode) ∨
    (∃ row ∈ opcodeTable, row.opc = opcField w ∧ ¬ FieldsFit row.shape w ∧ decode w = .error .malformedInstruction) ∨
    (∃ row ∈ opcodeTable, row.opc = opcField w ∧ FieldsFit row.shape w ∧ ∃ i, decode w = .ok i ∧ FieldsOf w i) := by
  by_cases h : KnownOpcode (opcField w)
  · obtain ⟨row, hrow, hopc⟩ := exists_row_of_knownOpcode h
    rcases decode_answersByClass hrow hopc with ⟨hfit, hok⟩ | ⟨hfit, herr⟩
    · exact .inr (.inr ⟨row, hrow, hopc, hfit, hok⟩)
    · exact .inr (.inl ⟨row, hrow, hopc, hfit, herr⟩)
  · exact .inl ⟨h, decode_of_not_knownOpcode h⟩

theorem fieldsOf_of_decode {w : InstrWord} {i : Instr} (h : decode w = .ok i) : FieldsOf w i := by
  rcases decode_cases w with ⟨-, hd⟩ | ⟨-, -, -, -, hd⟩ | ⟨-, -, -, -, j, hd, hj⟩ <;> cases hd.symm.trans h
  exact hj

theorem decode_eq_unknownOpcode_iff {w : InstrWord} :
    decode w = .error .unknownOpcode ↔ ¬ KnownOpcode (opcField w) := by
  refine ⟨fun h hknown => ?_, decode_of_not_knownOpcode⟩
  rcases decode_cases w with ⟨hunknown, -⟩ | ⟨-, -, -, -, hd⟩ | ⟨-, -, -, -, j, hd, -⟩
  · exact hunknown hknown
  · cases hd.symm.trans h
  · cases hd.symm.trans h

/-- At the row of the word's opcode number, decoding to an instruction means that the fields fit. -/
theorem exists_decode_eq_ok_iff {w : InstrWord} {row : OpcodeRow} (hrow : row ∈ opcodeTable)
    (hopc : row.opc = opcField w) : (∃ i, decode w = .ok i) ↔ FieldsFit row.shape w := by
  rcases decode_answersByClass hrow hopc with ⟨hfit, i, hok, -⟩ | ⟨hfit, herr⟩
  · exact iff_of_true ⟨i, hok⟩ hfit
  · exact iff_of_false (by simp [herr]) hfit

theorem decode_eq_malformed_iff {w : InstrWord} :
    decode w = .error .malformedInstruction ↔
      ∃ row ∈ opcodeTable, row.opc = opcField w ∧ ¬ FieldsFit row.shape w := by
  constructor
  · intro h
    rcases decode_cases w with ⟨-, hd⟩ | ⟨row, hrow, hopc, hfit, -⟩ | ⟨-, -, -, -, j, hd, -⟩
    · cases hd.symm.trans h
    · exact ⟨row, hrow, hopc, hfit⟩
    · cases hd.symm.trans h
  · rintro ⟨row, hrow, hopc, hfit⟩
    rcases decode_answersByClass hrow hopc with ⟨hfit', -⟩ | ⟨-, herr⟩
    · exact absurd hfit' hfit
    · exact herr

/-! ### The word of an instruction is its only one -/

theorem wellFormed_of_operands {i : Instr} (hfirst : i.first.wellFormed = true)
    (hsecond : ∀ o, i.second = some o → o.wellFormed = true) : i.wellFormed = true := by
  cases i with
  | mov a b | add a b | sub a b | mul a b | div a b | and a b | or a b | cmp a b =>
    exact Bool.and_eq_true_iff.2 ⟨hfirst, hsecond b rfl⟩
  | not a | inc a | dec a | print a => exact hfirst
  | jmp l | je l | jg l | jl l | jge l | jle l => exact hfirst

theorem kindCode_payload_of_second {w : InstrWord} {i : Instr} (h : FieldsOf w i) :
    optKindCode i.second = k2Field w ∧ optPayload i.second = bField w := by
  cases hsecond : i.second with
  | none => exact ⟨(operandOf_eq_none.1 (h.second.trans hsecond)).symm, (h.absent hsecond).symm⟩
  | some o =>
    obtain ⟨hkind, hpayload, -⟩ := operandOf_eq_some (h.second.trans hsecond)
    exact ⟨hkind, hpayload⟩

theorem FieldsOf.encode_eq {w : InstrWord} {i : Instr} (h : FieldsOf w i) : encode i = w := by
  obtain ⟨hkind, hpayload, -⟩ := operandOf_eq_some h.first
  obtain ⟨hkind2, hpayload2⟩ := kindCode_payload_of_second h
  rw [encode, h.opcode, hkind, hkind2, hpayload, hpayload2, ← h.rsv, packWord_fields]

theorem FieldsOf.wellFormed {w : InstrWord} {i : Instr} (h : FieldsOf w i) : i.wellFormed = true :=
  wellFormed_of_operands (operandOf_eq_some h.first).2.2 fun _ ho => (operandOf_eq_some (h.second.trans ho)).2.2

end Sys2Proof.Machine

namespace Sys2Proof.Proofs

open Sys2Proof.Machine Sys2Proof.Claims

/-- Settles O2: each instruction's word is of the form its opcode's decoding rule speaks of. -/
theorem decodeOfEncodeIsTheInstruction : Obligations.DecodeOfEncodeIsTheInstruction := fun _ => decode_encode

/-- Settles O3: a word that decodes has the fields of its instruction, and the fields make up the whole word. -/
theorem encodeOfDecodeIsTheWord : Obligations.EncodeOfDecodeIsTheWord := fun _ _ h =>
  ⟨(fieldsOf_of_decode h).encode_eq, (fieldsOf_of_decode h).wellFormed⟩

/-- Settles O4, from what the class of each opcode answers. -/
theorem decoderCasesInOrder : Obligations.DecoderCasesInOrder := fun _ =>
  ⟨decode_eq_unknownOpcode_iff, decode_eq_malformed_iff, fun _ h =>
    have hi := fieldsOf_of_decode h
    ⟨hi.opcode, hi.first, hi.second⟩⟩

end Sys2Proof.Proofs
end

section
/-! SUPPORT. The match-and-mask table (R89), serialised words (R52), and the words a step fetches (R112). -/

namespace Sys2Proof.Machine

open Sys2Proof.Claims

/-! ### The match-and-mask table (R89): masks and match words by their fields -/

theorem packWord_eq_iff {opc opc' : BitVec 8} {k1 k1' k2 k2' : BitVec 2} {rsv rsv' : BitVec 4} {a a' b b' : Word} :
    packWord opc k1 k2 rsv a b = packWord opc' k1' k2' rsv' a' b' ↔
      opc = opc' ∧ k1 = k1' ∧ k2 = k2' ∧ rsv = rsv' ∧ a = a' ∧ b = b' := by
  constructor
  · intro h
    exact ⟨by simpa using congrArg opcField h, by simpa using congrArg k1Field h, by simpa using congrArg k2Field h,
      by simpa using congrArg rsvField h, by simpa using congrArg aField h, by simpa using congrArg bField h⟩
  · rintro ⟨rfl, rfl, rfl, rfl, rfl, rfl⟩
    rfl

theorem mask_two : Shape.two.mask = packWord 0xFF 0 0 0xF 0 0 := by decide

theorem mask_one : Shape.one.mask = packWord 0xFF 0 3 0xF 0 (BitVec.allOnes 32) := by decide

theorem mask_jump : Shape.jump.mask = packWord 0xFF 3 3 0xF 0 (BitVec.allOnes 32) := by decide

/-- An opcode number shifted to its field. -/
theorem opcode_shiftLeft (opc : BitVec 8) : opc.setWidth 80 <<< 72 = packWord opc 0 0 0 0 0 := by
  have hopc : opc.toNat < 2 ^ 8 := opc.isLt
  apply BitVec.eq_of_toNat_eq
  simp only [packWord, BitVec.toNat_append, BitVec.toNat_shiftLeft, BitVec.toNat_setWidth, Nat.shiftLeft_eq,
    BitVec.ofNat_eq_ofNat, BitVec.toNat_ofNat, Nat.zero_mod, Nat.or_zero]
  omega

/-- Disjunction acts field by field. -/
theorem or_packWord (opc opc' : BitVec 8) (k1 k1' k2 k2' : BitVec 2) (rsv rsv' : BitVec 4) (a a' b b' : Word) :
    packWord opc k1 k2 rsv a b ||| packWord opc' k1' k2' rsv' a' b' =
      packWord (opc ||| opc') (k1 ||| k1') (k2 ||| k2') (rsv ||| rsv') (a ||| a') (b ||| b') := by
  unfold packWord
  simp only [← BitVec.or_append]

theorem opcode_shiftLeft_or_sym (opc : BitVec 8) :
    opc.setWidth 80 <<< 72 ||| 0x00C00000000000000000 = packWord opc 3 0 0 0 0 := by
  have hkind : (0x00C00000000000000000 : InstrWord) = packWord 0 3 0 0 0 0 := by decide
  rw [opcode_shiftLeft, hkind, or_packWord]
  simp

section
variable (w : InstrWord)

/-- A word kept under a mask given by its fields. -/
theorem and_packWord_eq (opc : BitVec 8) (k1 k2 : BitVec 2) (rsv : BitVec 4) (a b : Word) :
    w &&& packWord opc k1 k2 rsv a b =
      packWord (opcField w &&& opc) (k1Field w &&& k1) (k2Field w &&& k2) (rsvField w &&& rsv) (aField w &&& a)
        (bField w &&& b) := by
  rw [← and_packWord, packWord_fields]

theorem opcField_and_mask : opcField w &&& 0xFF = opcField w := BitVec.and_allOnes

theorem rsvField_and_mask : rsvField w &&& 0xF = rsvField w := BitVec.and_allOnes

theorem kind_and_mask (k : BitVec 2) : k &&& 3 = k := BitVec.and_allOnes

theorem and_mask_two_eq_iff (opc : BitVec 8) :
    w &&& Shape.two.mask = packWord opc 0 0 0 0 0 ↔ opcField w = opc ∧ rsvField w = 0 := by
  rw [mask_two, and_packWord_eq, packWord_eq_iff, opcField_and_mask, rsvField_and_mask]
  simp

theorem and_mask_one_eq_iff (opc : BitVec 8) :
    w &&& Shape.one.mask = packWord opc 0 0 0 0 0 ↔
      opcField w = opc ∧ k2Field w = 0 ∧ rsvField w = 0 ∧ bField w = 0 := by
  rw [mask_one, and_packWord_eq, packWord_eq_iff, opcField_and_mask, rsvField_and_mask, kind_and_mask,
    BitVec.and_allOnes]
  simp

theorem and_mask_jump_eq_iff (opc : BitVec 8) :
    w &&& Shape.jump.mask = packWord opc 3 0 0 0 0 ↔
      opcField w = opc ∧ k1Field w = 3 ∧ k2Field w = 0 ∧ rsvField w = 0 ∧ bField w = 0 := by
  rw [mask_jump, and_packWord_eq, packWord_eq_iff, opcField_and_mask, rsvField_and_mask, kind_and_mask, kind_and_mask,
    BitVec.and_allOnes]
  simp

end

/-- The row's mask and constraint ask for the row's opcode number and the fields of its class. -/
theorem isInstance_iff (row : OpcodeRow) (w : InstrWord) :
    row.isInstance w = true ↔ opcField w = row.opc ∧ FieldsFit row.shape w := by
  obtain ⟨mnemonic, opc, sh⟩ := row
  simp only [OpcodeRow.isInstance, Bool.and_eq_true, decide_eq_true_eq]
  cases sh with
  | two =>
    rw [OpcodeRow.matchWord, opcode_shiftLeft, and_mask_two_eq_iff, fieldsFit_two]
    simp [Shape.constraint, and_assoc]
  | one =>
    have hk1 : Shape.one.constraint w = true ↔ k1Field w ≠ 0 := decide_eq_true_iff
    rw [OpcodeRow.matchWord, opcode_shiftLeft, and_mask_one_eq_iff, fieldsFit_one, hk1]
    tauto
  | jump =>
    have hnone : Shape.jump.constraint w = true := rfl
    rw [OpcodeRow.matchWord, opcode_shiftLeft_or_sym, and_mask_jump_eq_iff, fieldsFit_jump]
    tauto

theorem isInstance_iff_decode {w : InstrWord} {row : OpcodeRow} (hrow : row ∈ opcodeTable) :
    row.isInstance w = true ↔ ∃ i, decode w = .ok i ∧ i.opcode = row.opc := by
  rw [isInstance_iff]
  constructor
  · rintro ⟨hopc, hfit⟩
    obtain ⟨i, hi⟩ := (exists_decode_eq_ok_iff hrow hopc.symm).2 hfit
    exact ⟨i, hi, (fieldsOf_of_decode hi).opcode.trans hopc⟩
  · rintro ⟨i, hi, hopcode⟩
    have hopc : opcField w = row.opc := (fieldsOf_of_decode hi).opcode.symm.trans hopcode
    exact ⟨hopc, (exists_decode_eq_ok_iff hrow hopc.symm).1 ⟨i, hi⟩⟩

/-! ### Serialised words (R52) -/

theorem wordsOfBytes_wordToBytes_append (fuel : Nat) (w : InstrWord) (rest : List Byte) :
    wordsOfBytes (fuel + 1) (wordToBytes w ++ rest) = (wordsOfBytes fuel rest).map (w :: ·) := by
  have hne : wordToBytes w ++ rest ≠ [] := by simp [wordToBytes]
  rw [wordsOfBytes, takeWord_wordToBytes]
  exact hne

theorem wordsOfBytes_wordsToBytes (ws : List InstrWord) :
    ∀ fuel, ws.length ≤ fuel → wordsOfBytes fuel (wordsToBytes ws) = some ws := by
  induction ws with
  | nil => intro fuel _; cases fuel <;> rfl
  | cons w ws ih =>
    intro fuel h
    obtain ⟨fuel, rfl⟩ := Nat.exists_eq_add_one_of_ne_zero (Nat.ne_of_gt (Nat.lt_of_lt_of_le (Nat.succ_pos _) h))
    rw [wordsToBytes, wordsOfBytes_wordToBytes_append, ih fuel (Nat.le_of_succ_le_succ h), Option.map_some]

theorem wordsToBytes_length (ws : List InstrWord) : (wordsToBytes ws).length = 10 * ws.length := by
  induction ws with
  | nil => rfl
  | cons w ws ih => simp [wordsToBytes, wordToBytes, ih]; omega

theorem decodeBytes_wordToBytes_append (w : InstrWord) (rest : List Byte) :
    decodeBytes (wordToBytes w ++ rest) = some (decode w, rest) := by
  simp [decodeBytes, takeWord_wordToBytes]

theorem wordToBytes_head? (w : InstrWord) : (wordToBytes w).head? = some (opcField w) := rfl

/-! ### The words a step fetches (R112; log entry 4) -/

theorem decode_of_decodeTableWord {nbits w : Nat} {i : Instr} (h : decodeTableWord nbits w = some i) :
    decode (tableWord nbits w) = .ok i := by
  unfold decodeTableWord at h
  split at h
  · split at h
    · cases h; assumption
    · cases h
  · cases h

theorem step_withFetchWord (s : State) {nbits w : Nat} {i : Instr} (h : decode (tableWord nbits w) = .ok i) :
    step (s.withFetchWord nbits w) = exec i (s.withFetchWord nbits w) :=
  step_of_decode_ok rfl (placeWord_getElem? ..) h

end Sys2Proof.Machine

namespace Sys2Proof.Proofs

open Sys2Proof.Machine

/-- Settles O5: a row's mask and constraint ask for its opcode number and the fields its class's decoder accepts. -/
theorem rowsMatchTheirInstructions : Obligations.RowsMatchTheirInstructions := fun _ _ => isInstance_iff_decode

/-- Settles O6, by induction on the words, each taking one unit of fuel. -/
theorem serialisedProgramReadsBack : Obligations.SerialisedProgramReadsBack := fun ws fuel h =>
  ⟨wordsOfBytes_wordsToBytes ws fuel h, wordsToBytes_length ws⟩

/-- Settles O7: the first ten bytes are the instruction's word, its first byte the word's opcode field. -/
theorem decodeBytesOfEncodedInstruction : Obligations.DecodeBytesOfEncodedInstruction := fun i rest h =>
  ⟨by rw [decodeBytes_wordToBytes_append, decode_encode h],
    by rw [wordToBytes_head?, (fieldsOf_of_decode (decode_encode h)).opcode]⟩

/-- Settles O1, by running the decoder on the nine words. -/
theorem specWordsDecode : Obligations.SpecWordsDecode := by
  unfold Obligations.SpecWordsDecode
  decide

/-- Settles O38: a word that decodes is executed, and the word of a well-formed instruction decodes to it. -/
theorem stepRunsTheDecodedInstruction : Obligations.StepRunsTheDecodedInstruction :=
  ⟨fun _ _ _ hf hw hd => step_of_decode_ok hf hw hd, fun _ _ hf hwf hw => step_of_decode_ok hf hw (decode_encode hwf)⟩

/-- Settles O39: the placed word stands at `pc` and no fault record stops the step. -/
theorem placedWordRunsNext : Obligations.PlacedWordRunsNext := fun s _ _ _ h =>
  step_withFetchWord s (decode_of_decodeTableWord h)

end Sys2Proof.Proofs
end

section
/-! SUPPORT. What every instruction, every step and every run keeps: progress (R117), the image (R60), the run status
(R32, R220) and the invariant of the machine (R28, R31, R199). -/

namespace Sys2Proof.Machine

open Sys2Proof.Claims

/-! ### A failed check is one of the faults the instruction may raise (R190) -/

theorem destCheck_eq_some {a : Operand} {e : Failure} (h : some e = destCheck a) : e = ⟨.invalidRegister, .first⟩ := by
  rcases dest_cases a with ⟨r, -, hd⟩ | ⟨-, hd⟩ <;> rw [destCheck_eq, hd] at h
  · cases h
  · exact Option.some.inj h

theorem sourceCheck_eq_some {o : Operand} {p : OperandPos} {e : Failure} (h : some e = sourceCheck o p) :
    e = ⟨.invalidRegister, p⟩ ∨ e = ⟨.malformedOperand, p⟩ := by
  unfold sourceCheck at h
  split at h
  · split at h
    · cases h
    · exact .inl (Option.some.inj h)
  · cases h
  · exact .inr (Option.some.inj h)

/-- A jump whose checks are those of the template fails, if it is taken, for its label alone. -/
theorem jumpCheck_eq_some {s : State} {i : Instr} {e : Failure}
    (hchecks : checks s i = jumpChecks s (takenLabel s.flag i)) (h : some e ∈ checks s i) :
    e = ⟨.unknownLabel, .first⟩ := by
  rw [hchecks] at h
  cases htarget : takenLabel s.flag i with
  | none => simp [htarget, jumpChecks] at h
  | some l =>
    rw [htarget] at h
    cases hr : s.image.resolve l with
    | some t => simp [jumpChecks_of_resolve hr] at h
    | none => simpa [jumpChecks_of_resolve_none hr] using h

theorem divisorCheck_eq_some {c : Prop} [Decidable c] {e f : Failure} (h : some e = if c then some f else none) :
    e = f := by
  split at h
  · exact Option.some.inj h
  · cases h

/-- Every check of an instruction fails, if it fails, with a fault the instruction may raise. -/
theorem mayRaise_of_mem_checks {s : State} {i : Instr} {e : Failure} (h : some e ∈ checks s i) :
    mayRaise i e.code e.opnd = true := by
  cases i with
  | mov a b | add a b | sub a b | mul a b | and a b | or a b =>
    rcases List.mem_pair.1 h with h | h
    · rw [destCheck_eq_some h]; rfl
    · rcases sourceCheck_eq_some h with rfl | rfl <;> rfl
  | div a b =>
    rcases List.mem_cons.1 h with h | h
    · rw [destCheck_eq_some h]; rfl
    · rcases List.mem_pair.1 h with h | h
      · rcases sourceCheck_eq_some h with rfl | rfl <;> rfl
      · rw [divisorCheck_eq_some h]; rfl
  | cmp a b =>
    rcases List.mem_pair.1 h with h | h <;> rcases sourceCheck_eq_some h with rfl | rfl <;> rfl
  | not a | inc a | dec a | print a =>
    rw [destCheck_eq_some (List.mem_singleton.1 h)]; rfl
  | jmp l | je l | jg l | jl l | jge l | jle l =>
    rw [jumpCheck_eq_some rfl h]; rfl

theorem mem_of_firstFailure {cs : List (Option Failure)} {e : Failure} (h : firstFailure cs = some e) :
    some e ∈ cs := by
  obtain ⟨c, hc, rfl⟩ := List.exists_of_findSome?_eq_some h
  exact hc

/-! ### How an instruction and a step can end -/

/-- Every instruction ends in a next state, with no fault taken or with one it may raise (R190, R199). -/
theorem exec_completes_or_mayRaise (i : Instr) (s : State) :
    (∃ t, exec i s = .next t ∧ t.fault = s.fault) ∨
    ∃ e, mayRaise i e.code e.opnd = true ∧ exec i s = .next (raised e s) := by
  rcases exec_decidedBy i s with ⟨-, t, ht, hfault, -⟩ | ⟨e, hfail, ht⟩
  · exact .inl ⟨t, ht, hfault⟩
  · exact .inr ⟨e, mayRaise_of_mem_checks (mem_of_firstFailure hfail), ht⟩

theorem exec_keeps_image {i : Instr} {s t : State} (h : exec i s = .next t) : t.image = s.image := by
  rcases exec_cases i s with ⟨u, hu, -, himage, -⟩ | ⟨e, hu⟩ <;> cases hu.symm.trans h
  · exact himage
  · rfl

/-- A step that goes on started with no fault record, at a word inside the program; it took the fault of a word that is
no instruction, or ran an instruction. -/
theorem step_next_cases {s t : State} (h : step s = .next t) :
    ∃ w, s.fault = none ∧ s.pc.toNat < s.image.len ∧ s.image.imem[s.pc.toNat]? = some w ∧
      ((∃ e, decode w = .error e ∧ t = raised (decodeFailure e) s) ∨ ∃ i, decode w = .ok i ∧ exec i s = .next t) := by
  rcases step_cases s with ⟨r, -, hs⟩ | ⟨-, -, hs⟩ | ⟨w, e, hf, hp, hw, hd, hs⟩ | ⟨w, i, hf, hp, hw, hd, hs⟩
  · cases hs.symm.trans h
  · cases hs.symm.trans h
  · cases hs.symm.trans h
    exact ⟨w, hf, hp, hw, .inl ⟨e, hd, rfl⟩⟩
  · exact ⟨w, hf, hp, hw, .inr ⟨i, hd, hs.symm.trans h⟩⟩

theorem step_keeps_image {s t : State} (h : step s = .next t) : t.image = s.image := by
  obtain ⟨w, -, -, -, ⟨e, -, rfl⟩ | ⟨i, -, hi⟩⟩ := step_next_cases h
  · rfl
  · exact exec_keeps_image hi

/-! ### The run status (R32, R111, R117) -/

theorem State.status_of_not_running {s : State} (h : s.status ≠ .running) :
    s.status = .halted ∨ s.status = .faulted := by
  cases hs : s.status with
  | running => exact absurd hs h
  | halted => exact .inl rfl
  | faulted => exact .inr rfl

theorem step_of_status_halted {s : State} (h : s.status = .halted) : step s = .fault .halted := by
  obtain ⟨hf, hp⟩ := s.status_halted_iff.1 h
  simp [step, State.fetchDecode_halted hf hp]

theorem step_of_fault {s : State} {r : FaultRecord} (h : s.fault = some r) : step s = .fault (.faulted r) := by
  simp [step, State.fetchDecode_faulted h]

/-- A core that is not Running answers every run of one step or more with why it has none. -/
theorem run_succ_of_not_running {s : State} (h : s.status ≠ .running) (k : Nat) :
    ∃ r, Sys2Proof.core.run (k + 1) s = .fault r := by
  rcases State.status_of_not_running h with hs | hs
  · exact ⟨_, run_succ_fault k (step_of_status_halted hs)⟩
  · obtain ⟨r, hr⟩ := Option.ne_none_iff_exists'.1 (s.status_faulted_iff.1 hs)
    exact ⟨_, run_succ_fault k (step_of_fault hr)⟩

/-- A run goes on for its number of steps, or reaches a state that is not Running before. -/
theorem run_next_or_stops (k : Nat) : ∀ s : State, (∃ t, Sys2Proof.core.run k s = .next t) ∨
    ∃ j t, j < k ∧ Sys2Proof.core.run j s = .next t ∧ t.status ≠ .running := by
  induction k with
  | zero => exact fun s => .inl ⟨s, run_zero s⟩
  | succ k ih =>
    intro s
    by_cases hs : s.status = .running
    · obtain ⟨u, hu⟩ := (step_eq_next_iff s).2 hs
      rcases ih u with ⟨t, ht⟩ | ⟨j, t, hj, ht, hstop⟩
      · exact .inl ⟨t, (run_succ_next k hu).trans ht⟩
      · exact .inr ⟨j + 1, t, Nat.succ_lt_succ hj, (run_succ_next j hu).trans ht, hstop⟩
    · exact .inr ⟨0, s, Nat.succ_pos k, run_zero s, hs⟩

/-! ### The invariant (R6, R28, R31, R199) -/

theorem State.faultExplained_of_none {s : State} (h : s.fault = none) : s.faultExplained = true := by
  simp [State.faultExplained, h]

/-- The fault of a word that is no instruction is explained by that word. -/
theorem faultExplained_raised_of_decode_error {s : State} {w : InstrWord} {e : DecodeError}
    (hw : s.image.imem[s.pc.toNat]? = some w) (hd : decode w = .error e) :
    (raised (decodeFailure e) s).faultExplained = true := by
  have hopnd : (decodeFailure e).opnd = .noOperand := by cases e <;> rfl
  simp [State.faultExplained, Image.fetch, hw, hd, hopnd]

/-- A fault the instruction at `pc` may raise is explained by it. -/
theorem faultExplained_raised_of_mayRaise {s : State} {w : InstrWord} {i : Instr} {e : Failure}
    (hw : s.image.imem[s.pc.toNat]? = some w) (hd : decode w = .ok i) (he : mayRaise i e.code e.opnd = true) :
    (raised e s).faultExplained = true := by
  simp [State.faultExplained, Image.fetch, hw, hd, he]

theorem step_keeps_faultExplained {s t : State} (h : step s = .next t) : t.faultExplained = true := by
  obtain ⟨w, hf, -, hw, ⟨e, hd, rfl⟩ | ⟨i, hd, hi⟩⟩ := step_next_cases h
  · exact faultExplained_raised_of_decode_error hw hd
  · rcases exec_completes_or_mayRaise i s with ⟨u, hu, hfault⟩ | ⟨e, he, hu⟩ <;> cases hu.symm.trans hi
    · exact State.faultExplained_of_none (hfault.trans hf)
    · exact faultExplained_raised_of_mayRaise hw hd he

/-- On a well-formed image a step leaves `pc` in 0..LEN: a label's address is at most LEN, and the next address is at
most LEN since an instruction stands below it (R116). -/
theorem step_pc_le_len {s t : State} (hwf : s.image.wf = true) (hpc : s.pc.toNat ≤ s.image.len)
    (h : step s = .next t) : t.pc.toNat ≤ s.image.len := by
  obtain ⟨w, hf, hlt, -⟩ := step_next_cases h
  obtain ⟨hfault, hdone⟩ := Proofs.pcUpdate s t hf h
  by_cases ht : t.fault = none
  · obtain ⟨w, i, -, -, htarget⟩ := hdone ht
    split at htarget
    · exact Image.toNat_le_len_of_resolve hwf (Image.resolve_eq_some.2 htarget)
    · rw [htarget.2 hwf]
      exact hlt
  · rwa [hfault ht]

theorem step_keeps_inv {s t : State} (hs : s.Inv) (h : step s = .next t) : t.Inv := by
  obtain ⟨hwf, hpc, -⟩ := hs
  have himage := step_keeps_image h
  exact ⟨himage ▸ hwf, himage ▸ step_pc_le_len hwf hpc h, step_keeps_faultExplained h⟩

theorem State.boot_inv {im : Image} (h : im.wf = true) : (State.boot im).Inv :=
  ⟨h, Nat.zero_le _, State.faultExplained_of_none rfl⟩

theorem run_boot_keeps {im : Image} {k : Nat} {t : State} (hwf : im.wf = true)
    (h : Sys2Proof.core.run k (State.boot im) = .next t) : t.image = im ∧ t.Inv :=
  run_keeps (P := fun u => u.image = im ∧ u.Inv)
    (fun _ _ hu hstep => ⟨(step_keeps_image hstep).trans hu.1, step_keeps_inv hu.2 hstep⟩) k _ t
    ⟨rfl, State.boot_inv hwf⟩ h

/-- A state that meets the invariant and has ended normally stands just past the last instruction. -/
theorem State.pc_eq_len_of_endedNormally {s : State} (hs : s.Inv) (h : s.endedNormally = true) :
    s.pc.toNat = s.image.len :=
  Nat.le_antisymm hs.2.1 (s.status_halted_iff.1 (s.endedNormally_iff.1 h)).2

/-! ### Where a taken jump goes (R116, R180) -/

theorem exec_of_takenLabel {s : State} {i : Instr} {l : Nat} {t : PcWord} (h : takenLabel s.flag i = some l)
    (hr : Resolves s l t) : exec i s = .next { s with pc := t } :=
  (exec_eq_branch_of_takenLabel h).trans (branch_of_resolves hr)

/-- One step of a Running core to an address that is LEN ends the run. -/
theorem endsNormally_of_step {s t : State} (h : step s = .next t) (hf : t.fault = none)
    (hp : t.image.len ≤ t.pc.toNat) : EndsNormally s :=
  ⟨1, t, run_succ_next 0 h, t.endedNormally_iff.2 (t.status_halted_iff.2 ⟨hf, hp⟩)⟩

end Sys2Proof.Machine

namespace Sys2Proof.Proofs

open Sys2Proof.Machine Sys2Proof.Claims

/-- Settles O55: the image is kept, `pc` moves to a label's address or past an instruction, and a fault taken is that of
the word or one its instruction may raise. -/
theorem stepKeepsInvariant : Obligations.StepKeepsInvariant := fun _ _ => step_keeps_inv

/-- Settles O45, from the checks that decide an instruction's outcome: each fails with a fault listed for it. -/
theorem everyInstructionEndsInANextState : Obligations.EveryInstructionEndsInANextState := by
  intro i s
  rcases exec_completes_or_mayRaise i s with ⟨t, ht, hfault⟩ | ⟨e, he, ht⟩
  · exact ⟨t, ht, .inl hfault⟩
  · exact ⟨_, ht, .inr ⟨e.code, e.opnd, he, rfl⟩⟩

/-- Settles O46: a step exists exactly in a Running core, so a run stops only where the status is another. -/
theorem runsStopHaltedOrFaulted : Obligations.RunsStopHaltedOrFaulted := by
  intro s k
  rcases run_next_or_stops k s with hgoes | ⟨j, t, hj, ht, hstop⟩
  · exact .inl hgoes
  · exact .inr ⟨j, t, hj, ht, State.status_of_not_running hstop⟩

/-- Settles O49: an instruction that completes and fault entry both keep the image. -/
theorem imageNeverChanges : Obligations.ImageNeverChanges :=
  ⟨fun _ _ _ => exec_keeps_image, fun _ _ => step_keeps_image⟩

/-- Settles O53: a stopped core has no step, and reset leaves a core that runs if it has a program. -/
theorem onlyResetLeavesHaltedAndFaulted : Obligations.OnlyResetLeavesHaltedAndFaulted := by
  intro s hs
  refine ⟨fun k t ht => ?_, s.applyReset_status_running_iff.2⟩
  obtain ⟨r, hr⟩ := run_succ_of_not_running hs k
  cases hr.symm.trans ht

/-- Settles O56: what reset establishes and every step keeps, every run keeps. -/
theorem runsStayWithinTheProgram : Obligations.RunsStayWithinTheProgram := by
  intro im k t hwf h
  obtain ⟨himage, hinv⟩ := run_boot_keeps hwf h
  exact ⟨himage, hinv, fun hend => himage ▸ State.pc_eq_len_of_endedNormally hinv hend⟩

/-- Settles O36: a taken jump to a declared label sets `pc` to its address and does nothing else. -/
theorem jumpTargetProperties : Obligations.JumpTargetProperties := by
  refine ⟨fun s i l h hr => exec_of_takenLabel h hr, fun s i l h hr => exec_of_takenLabel h hr, ?_⟩
  intro s w i l t hf hw hd h hr ht
  have hstep : step s = .next { s with pc := t } := (step_of_decode_ok hf hw hd).trans (exec_of_takenLabel h hr)
  exact endsNormally_of_step hstep hf ht.ge

/-- Settles O44, from the two reasons the fetch can give for having no word. -/
theorem stoppedCoreNamesItsStatus : Obligations.StoppedCoreNamesItsStatus := fun _ =>
  ⟨step_of_status_halted, fun _ => step_of_fault⟩

/-- Settles O54: at reset `pc` is 0 and there is no fault record to explain. -/
theorem invariantHoldsAtReset : Obligations.InvariantHoldsAtReset :=
  ⟨State.boot_inv Image.wf_empty, fun _ => State.boot_inv⟩

end Sys2Proof.Proofs
end

section
/-! SUPPORT. What an instruction reads and writes: the registers (R22 to R24) and the output stream (R35, R62). -/

namespace Sys2Proof.Machine

open Sys2Proof.Claims

/-! ### The register file (R22, R24) -/

theorem setRegFrom_index (r q : RegName) (s : State) :
    setRegFrom r.index q.index s = .ok (s.writeReg r (s.regs.get q)) := by simp [setRegFrom]

theorem setRegFrom_invalid {n m : Nat} (h : ¬ (1 ≤ n ∧ n ≤ 10 ∧ 1 ≤ m ∧ m ≤ 10)) (s : State) :
    ∃ e, setRegFrom n m s = .error e := by
  by_cases hn : 1 ≤ n ∧ n ≤ 10
  · obtain ⟨r, -, rfl⟩ := (RegName.exists_ofNumber_iff n).2 hn
    have hm : ¬ (1 ≤ m ∧ m ≤ 10) := fun hm => h ⟨hn.1, hn.2, hm⟩
    exact ⟨⟨.invalidRegister, .second⟩, by simp [setRegFrom, RegName.ofNumber_eq_none.2 hm]⟩
  · exact ⟨⟨.invalidRegister, .first⟩, by simp [setRegFrom, RegName.ofNumber_eq_none.2 hn]⟩

theorem RegFile.set_set (f : RegFile) (r : RegName) (v w : Word) : (f.set r v).set r w = f.set r w := by
  cases r <;> rfl

/-! ### Which registers matter (R23) -/

theorem names_unique {o : Operand} {r q : RegName} (hr : Names o r) (hq : Names o q) : r = q :=
  RegName.index_injective (Operand.reg.inj (hr.symm.trans hq))

theorem names_of_dest_ok {o : Operand} {d : RegName} (h : dest o = .ok d) : Names o d := by
  rcases dest_cases o with ⟨r, hr, hd⟩ | ⟨-, hd⟩ <;> cases hd.symm.trans h
  exact hr

/-- An operand is evaluated alike in a register file that agrees on the register it names. -/
theorem valueof_of_agree {o : Operand} {s : State} {f : RegFile} (h : ∀ r, Names o r → f.get r = s.regs.get r)
    (p : OperandPos) : valueof o p { s with regs := f } = valueof o p s := by
  cases o with
  | imm v => rfl
  | sym i => rfl
  | reg n =>
    rcases getReg_cases n p s with ⟨r, rfl, -⟩ | ⟨hn, -⟩
    · simp [h r rfl]
    · rw [valueof_reg_invalid hn, valueof_reg_invalid hn]

/-- `out` from `s` and `out'` from `s` with register file `f` are the same effect: they agree on everything but the
registers, and of these both write the same value to one register of `writes`, or neither writes any. -/
def SameEffect (writes : RegName → Prop) (s : State) (f : RegFile) (out out' : Result) : Prop :=
  ∃ t u, out = .next t ∧ out' = .next u ∧ { u with regs := t.regs } = t ∧
    ((∃ d v, writes d ∧ t.regs = s.regs.set d v ∧ u.regs = f.set d v) ∨ (t.regs = s.regs ∧ u.regs = f))

section
variable {writes : RegName → Prop} {s : State} {f : RegFile}

theorem raise_sameEffect (e : Failure) : SameEffect writes s f (raise e s) (raise e { s with regs := f }) :=
  ⟨_, _, rfl, rfl, rfl, .inr ⟨rfl, rfl⟩⟩

theorem writeAndAdvance_sameEffect {d : RegName} (hd : writes d) (v : Word) :
    SameEffect writes s f (writeAndAdvance d v s) (writeAndAdvance d v { s with regs := f }) :=
  ⟨_, _, rfl, rfl, rfl, .inl ⟨d, v, hd, rfl, rfl⟩⟩

theorem advance_sameEffect : SameEffect writes s f (.next s.advance) (.next { s with regs := f }.advance) :=
  ⟨_, _, rfl, rfl, rfl, .inr ⟨rfl, rfl⟩⟩

/-- A check that answers alike, followed by the same effect. -/
theorem andThen_sameEffect {α : Type} {check check' : Except Failure α} {k k' : α → Result} (hcheck : check' = check)
    (hk : ∀ v, check = .ok v → SameEffect writes s f (k v) (k' v)) :
    SameEffect writes s f (andThen check s k) (andThen check' { s with regs := f } k') := by
  subst hcheck
  cases check' with
  | ok v => exact hk v rfl
  | error e => exact raise_sameEffect e

/-- A two-operand instruction whose own function gives the same answer in both register files. -/
theorem twoOperandChecked_sameEffect {g : Word → Word → Except Failure Word} {a b : Operand}
    (hb : ∀ r, Names b r → f.get r = s.regs.get r) (hg : ∀ d v, Names a d → g (f.get d) v = g (s.regs.get d) v) :
    SameEffect (Names a) s f (twoOperandChecked g a b s) (twoOperandChecked g a b { s with regs := f }) :=
  andThen_sameEffect rfl fun d hd =>
    andThen_sameEffect (valueof_of_agree hb .second) fun v _ =>
      andThen_sameEffect (hg d v (names_of_dest_ok hd)) fun x _ => writeAndAdvance_sameEffect (names_of_dest_ok hd) x

/-- An instruction of the template that reads both its operands. -/
theorem twoOperandChecked_sameEffect_of_agree {g : Word → Word → Except Failure Word} {a b : Operand}
    (h : ∀ r, Names a r ∨ Names b r → f.get r = s.regs.get r) :
    SameEffect (Names a) s f (twoOperandChecked g a b s) (twoOperandChecked g a b { s with regs := f }) :=
  twoOperandChecked_sameEffect (fun r hr => h r (.inr hr)) fun d v hd => by rw [h d (.inl hd)]

theorem twoOperand_sameEffect {g : Word → Word → Word} {a b : Operand}
    (h : ∀ r, Names a r ∨ Names b r → f.get r = s.regs.get r) :
    SameEffect (Names a) s f (twoOperand g a b s) (twoOperand g a b { s with regs := f }) :=
  twoOperandChecked_sameEffect_of_agree h

theorem oneOperand_sameEffect {g : Word → Word} {a : Operand} (h : ∀ r, Names a r → f.get r = s.regs.get r) :
    SameEffect (Names a) s f (oneOperand g a s) (oneOperand g a { s with regs := f }) :=
  andThen_sameEffect rfl fun d hd => by
    have hget : f.get d = s.regs.get d := h d (names_of_dest_ok hd)
    rw [hget]
    exact writeAndAdvance_sameEffect (names_of_dest_ok hd) _

theorem execCmp_sameEffect {a b : Operand} (h : ∀ r, Names a r ∨ Names b r → f.get r = s.regs.get r) :
    SameEffect writes s f (execCmp a b s) (execCmp a b { s with regs := f }) :=
  andThen_sameEffect (valueof_of_agree (fun r hr => h r (.inl hr)) .first) fun _ _ =>
    andThen_sameEffect (valueof_of_agree (fun r hr => h r (.inr hr)) .second) fun _ _ =>
      ⟨_, _, rfl, rfl, rfl, .inr ⟨rfl, rfl⟩⟩

theorem execPrint_sameEffect {a : Operand} (h : ∀ r, Names a r → f.get r = s.regs.get r) :
    SameEffect writes s f (execPrint a s) (execPrint a { s with regs := f }) :=
  andThen_sameEffect rfl fun d hd => by
    have hget : f.get d = s.regs.get d := h d (names_of_dest_ok hd)
    rw [hget]
    exact ⟨_, _, rfl, rfl, rfl, .inr ⟨rfl, rfl⟩⟩

theorem branch_sameEffect (policy : Config.UnknownLabelPolicy) (taken : Bool) (label : Nat) :
    SameEffect writes s f (branch policy taken label s) (branch policy taken label { s with regs := f }) := by
  simp only [branch]
  cases taken with
  | false => exact advance_sameEffect
  | true =>
    cases s.image.resolve label with
    | some t => exact ⟨_, _, rfl, rfl, rfl, .inr ⟨rfl, rfl⟩⟩
    | none =>
      cases policy with
      | fault => exact raise_sameEffect _
      | skip => exact advance_sameEffect

theorem exec_sameEffect {i : Instr} (h : ∀ r, readsReg i r → f.get r = s.regs.get r) :
    SameEffect (writesReg i) s f (exec i s) (exec i { s with regs := f }) := by
  cases i with
  | mov a b => exact twoOperandChecked_sameEffect (g := fun _ v => .ok v) h fun _ _ _ => rfl
  | add a b | sub a b | mul a b | and a b | or a b => exact twoOperand_sameEffect h
  | div a b => exact twoOperandChecked_sameEffect_of_agree h
  | not a | inc a | dec a => exact oneOperand_sameEffect h
  | cmp a b => exact execCmp_sameEffect h
  | jmp l => exact branch_sameEffect Config.unknownLabelPolicy true l
  | je l | jg l | jl l | jge l | jle l => exact branch_sameEffect Config.unknownLabelPolicy _ l
  | print a => exact execPrint_sameEffect h

end

theorem writesReg_unique {i : Instr} {r q : RegName} (hr : writesReg i r) (hq : writesReg i q) : r = q := by
  cases i with
  | mov a b | add a b | sub a b | mul a b | div a b | and a b | or a b => exact names_unique hr hq
  | not a | inc a | dec a => exact names_unique hr hq
  | cmp a b | print a => exact hr.elim
  | jmp l | je l | jg l | jl l | jge l | jle l => exact hr.elim

/-- A register an instruction does not write keeps its value. -/
theorem exec_keeps_register {i : Instr} {s t : State} {r : RegName} (h : exec i s = .next t) (hr : ¬ writesReg i r) :
    t.regs.get r = s.regs.get r := by
  obtain ⟨t', u, ht, -, -, hregs⟩ := exec_sameEffect (f := s.regs) fun _ _ => rfl
  cases ht.symm.trans h
  rcases hregs with ⟨d, v, hd, ht, -⟩ | ⟨ht, -⟩
  · rw [ht]
    exact RegFile.get_set_other _ v fun hrd => hr (hrd ▸ hd)
  · rw [ht]

/-! ### The output stream (R35, R62) -/

/-- `m` neither writes the output stream nor reads it: with any other stream in the state the same happens. -/
def OutputKept (m : State → Result) : Prop :=
  ∀ s, ∃ t, m s = .next t ∧ t.output = s.output ∧ ∀ o, m { s with output := o } = .next { t with output := o }

theorem outputKept_of_commute {g : State → State} (hkeep : ∀ s, (g s).output = s.output)
    (hcomm : ∀ s o, g { s with output := o } = { g s with output := o }) : OutputKept fun s => .next (g s) :=
  fun s => ⟨g s, rfl, hkeep s, fun o => congrArg _ (hcomm s o)⟩

theorem raise_outputKept (e : Failure) : OutputKept (raise e) :=
  outputKept_of_commute (fun _ => rfl) (fun _ _ => rfl)

theorem advance_outputKept : OutputKept fun s => .next s.advance :=
  outputKept_of_commute (fun _ => rfl) (fun _ _ => rfl)

/-- A check that does not read the output stream, followed by what keeps it. -/
theorem andThen_outputKept {α : Type} {check : State → Except Failure α} {k : α → State → Result}
    (hcheck : ∀ s o, check { s with output := o } = check s) (hk : ∀ v, OutputKept (k v)) :
    OutputKept fun s => andThen (check s) s (k · s) := by
  intro s
  simp only [hcheck]
  cases check s with
  | ok v => exact hk v s
  | error e => exact raise_outputKept e s

theorem twoOperandChecked_outputKept (f : Word → Word → Except Failure Word) (a b : Operand) :
    OutputKept (twoOperandChecked f a b) :=
  andThen_outputKept (fun _ _ => rfl) fun d =>
    andThen_outputKept (check := valueof b .second) (fun _ _ => rfl) fun v =>
      andThen_outputKept (check := fun s => f (s.regs.get d) v) (fun _ _ => rfl) fun _ =>
        outputKept_of_commute (fun _ => rfl) (fun _ _ => rfl)

theorem twoOperand_outputKept (f : Word → Word → Word) (a b : Operand) : OutputKept (twoOperand f a b) :=
  twoOperandChecked_outputKept _ a b

theorem oneOperand_outputKept (f : Word → Word) (a : Operand) : OutputKept (oneOperand f a) :=
  andThen_outputKept (fun _ _ => rfl) fun _ => outputKept_of_commute (fun _ => rfl) (fun _ _ => rfl)

theorem execCmp_outputKept (a b : Operand) : OutputKept (execCmp a b) :=
  andThen_outputKept (check := valueof a .first) (fun _ _ => rfl) fun _ =>
    andThen_outputKept (check := valueof b .second) (fun _ _ => rfl) fun _ =>
      outputKept_of_commute (fun _ => rfl) (fun _ _ => rfl)

/-- A jump whose predicate reads the flag alone. -/
theorem branch_outputKept (policy : Config.UnknownLabelPolicy) (test : Word → Bool) (label : Nat) :
    OutputKept fun s => branch policy (test s.flag) label s := by
  intro s
  simp only [branch]
  cases test s.flag with
  | false => exact advance_outputKept s
  | true =>
    cases s.image.resolve label with
    | some t => exact outputKept_of_commute (g := (·.jumpTo t)) (fun _ => rfl) (fun _ _ => rfl) s
    | none =>
      cases policy with
      | fault => exact raise_outputKept _ s
      | skip => exact advance_outputKept s

/-- Only a PRINT of one of the ten registers does not keep the output stream; any other PRINT faults. -/
theorem exec_outputKept_or_print (i : Instr) : OutputKept (exec i) ∨ ∃ r : RegName, i = .print (.reg r.index) := by
  cases i with
  | mov a b => exact .inl (twoOperand_outputKept (fun _ v => v) a b)
  | add a b | sub a b | mul a b | and a b | or a b => exact .inl (twoOperand_outputKept _ a b)
  | div a b => exact .inl (twoOperandChecked_outputKept _ a b)
  | not a | inc a | dec a => exact .inl (oneOperand_outputKept _ a)
  | cmp a b => exact .inl (execCmp_outputKept a b)
  | jmp l => exact .inl (branch_outputKept Config.unknownLabelPolicy (fun _ => true) l)
  | je l => exact .inl (branch_outputKept Config.unknownLabelPolicy flagZero l)
  | jg l => exact .inl (branch_outputKept Config.unknownLabelPolicy flagPositive l)
  | jl l => exact .inl (branch_outputKept Config.unknownLabelPolicy flagNegative l)
  | jge l => exact .inl (branch_outputKept Config.unknownLabelPolicy flagNonNegative l)
  | jle l => exact .inl (branch_outputKept Config.unknownLabelPolicy flagNonPositive l)
  | print a =>
    rcases dest_cases a with ⟨r, rfl, -⟩ | ⟨hno, -⟩
    · exact .inr ⟨r, rfl⟩
    · have hfault : exec (.print a) = raise ⟨.invalidRegister, .first⟩ := funext (exec_print_of_namesNoRegister hno)
      exact .inl (hfault ▸ raise_outputKept _)

theorem exec_output_cases {i : Instr} {s t : State} (h : exec i s = .next t) :
    t.output = s.output ∨
      ∃ r : RegName, i = .print (.reg r.index) ∧ t.output = s.output ++ [⟨r, s.regs.get r⟩] := by
  rcases exec_outputKept_or_print i with hkept | ⟨r, rfl⟩
  · obtain ⟨t', ht, hout, -⟩ := hkept s
    cases ht.symm.trans h
    exact .inl hout
  · cases (exec_print_reg_index r s).symm.trans h
    exact .inr ⟨r, rfl, rfl⟩

end Sys2Proof.Machine

namespace Sys2Proof.Proofs

open Sys2Proof.Machine Sys2Proof.Claims

/-- Settles O9, from the laws of the register file and the validation its three operations share. -/
theorem registerFileContract : Obligations.RegisterFileContract :=
  ⟨fun s r p => getReg_index r p s, fun s r p v => setReg_index r v p s, fun s r q => setRegFrom_index r q s,
    fun s _ _ h => setRegFrom_invalid h s, RegFile.get_set_same, fun f _ _ v h => f.get_set_other v h⟩

/-- Settles O48: from two register files that agree on what an instruction reads it has the same effect, which writes
at most one register. -/
theorem registersReadAndWritten : Obligations.RegistersReadAndWritten := by
  refine ⟨fun i s t r h hr => exec_keeps_register h hr, fun i s t f hagree h => ?_⟩
  obtain ⟨t', u, ht, hu, hrest, hregs⟩ := exec_sameEffect hagree
  cases ht.symm.trans h
  refine ⟨u, hu, hrest, ?_⟩
  rcases hregs with ⟨d, v, hd, htregs, huregs⟩ | ⟨htregs, huregs⟩
  · refine .inl fun r hr => ?_
    rw [writesReg_unique hr hd, htregs, huregs, RegFile.get_set_same, RegFile.get_set_same]
  · exact .inr ⟨huregs, htregs⟩

/-- Settles O51: no instruction but PRINT touches the output stream, and PRINT appends to whatever stream there is. -/
theorem outputIsNeverRead : Obligations.OutputIsNeverRead := by
  intro i s t o h
  rcases exec_outputKept_or_print i with hkept | ⟨r, rfl⟩
  · obtain ⟨t', ht, hout, hsame⟩ := hkept s
    cases ht.symm.trans h
    exact ⟨[], by rw [hout, List.append_nil], by rw [hsame, List.append_nil]⟩
  · cases (exec_print_reg_index r s).symm.trans h
    exact ⟨_, rfl, exec_print_reg_index r _⟩

/-- Settles O50: fault entry keeps the stream, and so does every instruction but a PRINT of a register. -/
theorem outputGrowsByPrintAlone : Obligations.OutputGrowsByPrintAlone := by
  intro s t h
  obtain ⟨w, -, -, hw, ⟨e, -, rfl⟩ | ⟨i, hd, hi⟩⟩ := step_next_cases h
  · exact .inl rfl
  · rcases exec_output_cases hi with hkept | ⟨r, rfl, hout⟩
    · exact .inl hkept
    · exact .inr ⟨w, r, hw, hd, hout⟩

end Sys2Proof.Proofs
end

section
/-! SUPPORT. DIV's quotient as the library's signed division (R139, R141), and INC and DEC as ADD and SUB of 1 (R160,
R161). -/

namespace Sys2Proof.Machine

open Sys2Proof.Claims

/-! ### The truncated quotient (R139) -/

theorem truncDiv_eq_tdiv (x y : Int) : truncDiv x y = x.tdiv y := by
  rw [← Int.sign_mul_natAbs (x.tdiv y), Int.sign_tdiv, Int.natAbs_tdiv, truncDiv]
  split
  · have hzero : x.natAbs / y.natAbs = 0 := Nat.div_eq_of_lt ‹_›
    simp [hzero]
  · rfl

theorem aluDiv_eq_sdiv (x v : Word) : aluDiv x v = x.sdiv v :=
  BitVec.eq_of_toInt_eq (by rw [aluDiv, toInt_wrap, truncDiv_eq_tdiv, BitVec.toInt_sdiv])

/-- INT_MIN ÷ −1 is the one quotient that does not fit. -/
theorem aluDiv_intMin {v : Word} (hv : v.toInt = -1) : aluDiv (BitVec.intMin 32) v = BitVec.intMin 32 := by
  rw [aluDiv_eq_sdiv, eq_allOnes_of_toInt_eq_neg_one hv, ← BitVec.neg_one_eq_allOnes]
  exact BitVec.intMin_sdiv_neg_one

theorem toInt_aluDiv {x v : Word} (h : ¬ (x = BitVec.intMin 32 ∧ v.toInt = -1)) :
    (aluDiv x v).toInt = x.toInt.tdiv v.toInt := by
  rw [aluDiv_eq_sdiv]
  refine BitVec.toInt_sdiv_of_ne_or_ne x v (not_and_or.1 fun ⟨hx, hv⟩ => h ⟨hx, ?_⟩)
  rw [hv]
  rfl

/-- The remainder of the truncated quotient: smaller than the divisor, and of the sign of the dividend or 0. -/
theorem tdiv_remainder (x : Int) {y : Int} (hy : y ≠ 0) :
    x = x.tdiv y * y + x.tmod y ∧ (x.tmod y).natAbs < y.natAbs ∧
      (x.tmod y = 0 ∨ (x.tmod y).sign = x.sign) := by
  refine ⟨(Int.tdiv_mul_add_tmod x y).symm, ?_, ?_⟩
  · rw [Int.natAbs_tmod]
    exact Nat.mod_lt _ (Int.natAbs_pos.2 hy)
  · by_cases hdvd : y ∣ x
    · exact .inl (Int.tmod_eq_zero_of_dvd hdvd)
    · exact .inr (by rw [Int.sign_tmod, if_neg hdvd])

/-! ### INC and DEC (R160, R161; 44_inc_dec.md) -/

theorem exec_inc_eq_exec_add_one (a : Operand) (s : State) : exec (.inc a) s = exec (.add a (.imm 1)) s := rfl

theorem exec_dec_eq_exec_sub_one (a : Operand) (s : State) : exec (.dec a) s = exec (.sub a (.imm 1)) s := rfl

/-- Two functions that undo each other, applied to a register in turn: only `pc` has moved. -/
theorem oneOperand_undo {f g : Word → Word} (hundo : ∀ x, g (f x) = x) (r : RegName) (s : State) :
    ∃ t u, oneOperand f (.reg r.index) s = .next t ∧ oneOperand g (.reg r.index) t = .next u ∧
      u = { s with pc := s.pc + 2 } := by
  refine ⟨_, _, oneOperand_reg_index f r s, oneOperand_reg_index g r _, ?_⟩
  have hregs : (s.regs.set r (f (s.regs.get r))).set r (g (f (s.regs.get r))) = s.regs := by
    rw [RegFile.set_set, hundo, RegFile.set_get_self]
  have hpc : s.pc + 1 + 1 = s.pc + 2 := by rw [BitVec.add_assoc]; rfl
  simp only [RegFile.get_set_same, hregs, hpc]

theorem aluDec_aluInc (x : Word) : aluDec (aluInc x) = x := by
  rw [aluDec_eq_sub_one, aluInc_eq_add_one, add_sub_cancel_right]

theorem aluInc_aluDec (x : Word) : aluInc (aluDec x) = x := by
  rw [aluInc_eq_add_one, aluDec_eq_sub_one, sub_add_cancel]

end Sys2Proof.Machine

namespace Sys2Proof.Proofs

open Sys2Proof.Machine Sys2Proof.Claims

/-- Settles O30: the quotient is the library's signed division, whose remainder is known. -/
theorem divisionIdentity : Obligations.DivisionIdentity := by
  intro s r b v hb hv
  refine ⟨_, exec_div_of_ne_zero r hb hv, ?overflow, ?fits⟩
  case overflow =>
    rintro ⟨hx, hv⟩
    rw [hx, aluDiv_intMin hv]
  case fits =>
    intro hfit
    rw [toInt_aluDiv hfit]
    exact ⟨_, tdiv_remainder _ (mt (toInt_eq_zero_iff v).1 hv)⟩

/-- Settles O31: the literal 1 has no fault of its own, and adding and subtracting 1 undo each other. -/
theorem incDecAreAddSubOfOne : Obligations.IncDecAreAddSubOfOne :=
  ⟨fun a s => ⟨exec_inc_eq_exec_add_one a s, exec_dec_eq_exec_sub_one a s⟩,
    fun s r => oneOperand_undo aluDec_aluInc r s, fun s r => oneOperand_undo aluInc_aluDec r s⟩

end Sys2Proof.Proofs
end

section
/-! SUPPORT. The assembler: what holds of every program that loads (R83 to R86), the bounds of its image (R6, R31) and
the words of its lines (R78, R87). -/

namespace Sys2Proof.Machine

open Sys2Proof.Claims

/-! ### What holds of every loaded program (R83, R84, R86) -/

/-- Every instruction line has an operand count its mnemonic may have, and every label's address is at most the number
of instruction lines. -/
def LoadedProgram (p : Program) : Prop :=
  (∀ l ∈ p.lines, operandCountOk l.1 l.2.length = true) ∧ ∀ l ∈ p.labels, l.2 ≤ p.lines.length

theorem loadLine_keeps_loadedProgram (p q : Program) (raw : List Char) (hp : LoadedProgram p)
    (h : loadLine p raw = .ok q) : LoadedProgram q := by
  obtain ⟨hlines, hlabels⟩ := hp
  rcases loadLine_cases h with ⟨-, rfl⟩ | ⟨name, -, rfl⟩ | ⟨c, cs, m, operands, -, -, hcount, rfl⟩
  · exact ⟨hlines, hlabels⟩
  · refine ⟨hlines, List.forall_mem_append.2 ⟨hlabels, ?_⟩⟩
    simp
  · refine ⟨List.forall_mem_append.2 ⟨hlines, by simpa using hcount⟩, fun l hl => ?_⟩
    exact (hlabels l hl).trans (by simp)

theorem loadedProgram_of_loadLines {ls : List (List Char)} {p : Program} (h : loadLines ⟨[], []⟩ ls = .ok p) :
    LoadedProgram p :=
  loadLines_keeps loadLine_keeps_loadedProgram h ⟨by simp, by simp⟩

/-- A line adds an instruction exactly if it is neither blank nor a label line. -/
theorem loadLine_lines_length {p q : Program} {raw : List Char} (h : loadLine p raw = .ok q) :
    q.lines.length = p.lines.length + [raw].countP isInstructionLine := by
  rcases loadLine_cases h with ⟨htrim, rfl⟩ | ⟨name, htrim, rfl⟩ | ⟨c, cs, m, operands, htrim, hc, -, rfl⟩
  · simp [isInstructionLine, htrim]
  · simp [isInstructionLine, htrim]
  · simp [isInstructionLine, htrim, hc]

theorem loadLines_lines_length {ls : List (List Char)} : ∀ {p q : Program}, loadLines p ls = .ok q →
    q.lines.length = p.lines.length + ls.countP isInstructionLine := by
  induction ls with
  | nil =>
    intro p q h
    cases h
    rfl
  | cons l ls ih =>
    intro p q h
    rw [loadLines] at h
    split at h
    · rename_i r hr
      rw [ih h, loadLine_lines_length hr, Nat.add_assoc, ← List.countP_append, List.singleton_append]
    · cases h

/-! ### The bounds of the image (R6, R31) -/

theorem Program.labelTable_length (p : Program) : p.labelTable.length = p.names.length := by
  have hle : (p.labels.map Prod.fst).length ≤ p.names.length := addReferences_length _ _
  rw [List.length_map] at hle
  simp only [Program.labelTable, List.length_append, List.length_map, List.length_replicate]
  omega

theorem Program.image_wf {p : Program} (hp : LoadedProgram p) (hlines : p.lines.length ≤ Config.maxLen)
    (hnames : p.names.length ≤ Config.maxLabels) : p.image.wf = true := by
  have hlen : p.image.imem.length = p.lines.length := List.length_map ..
  refine Image.wf_iff.2 ⟨hlen ▸ hlines, p.labelTable_length ▸ hnames, fun t ht => ?_⟩
  have ht : some t ∈ p.labels.map (fun l => some (BitVec.ofNat 32 l.2)) := by
    simpa [Program.image, Program.labelTable] using ht
  obtain ⟨l, hl, hlt⟩ := List.mem_map.1 ht
  cases hlt
  rw [hlen, BitVec.toNat_ofNat]
  exact (Nat.mod_le _ _).trans (hp.2 l hl)

/-! ### The words of the lines (R78, R87) -/

theorem decode_ne_malformed_of_fieldsFit {row : OpcodeRow} {w : InstrWord} (hrow : row ∈ opcodeTable)
    (hopc : row.opc = opcField w) (hfit : FieldsFit row.shape w) : decode w ≠ .error .malformedInstruction := by
  obtain ⟨i, hi⟩ := (exists_decode_eq_ok_iff hrow hopc).2 hfit
  simp [hi]

/-- The word of a line of a known mnemonic has the fields of its row. -/
theorem lineWord_of_row {names : List Token} {m : Token} {operands : List Token} {row : OpcodeRow}
    (hrow : lookupMnemonic m = some row) (hcount : operands.length = row.shape.arity) :
    row.opc = opcField (lineWord names m operands) ∧ FieldsFit row.shape (lineWord names m operands) := by
  obtain ⟨mnemonic, opc, sh⟩ := row
  cases sh with
  | two =>
    obtain ⟨a, b, rfl⟩ := List.length_eq_two.1 hcount
    simpa [lineWord, hrow, fieldsFit_two, optKindCode] using
      And.intro (kindCode_ne_zero (classify a)) (kindCode_ne_zero (classify b))
  | one =>
    obtain ⟨a, rfl⟩ := List.length_eq_one_iff.1 hcount
    simpa [lineWord, hrow, fieldsFit_one, optKindCode, optPayload] using kindCode_ne_zero (classify a)
  | jump => simp [lineWord, hrow, fieldsFit_jump]

/-- The word of a line of an unknown mnemonic has an unknown opcode number (R87). -/
theorem decode_lineWord_of_unknown (names : List Token) {m : Token} (operands : List Token)
    (hrow : lookupMnemonic m = none) : decode (lineWord names m operands) = .error .unknownOpcode :=
  decode_of_not_knownOpcode (by simp [lineWord, hrow, KnownOpcode])

theorem decode_lineWord_ne_malformed (names : List Token) {m : Token} {operands : List Token}
    (hcount : operandCountOk m operands.length = true) :
    decode (lineWord names m operands) ≠ .error .malformedInstruction := by
  cases hrow : lookupMnemonic m with
  | none => simp [decode_lineWord_of_unknown names operands hrow]
  | some row =>
    have harity : operands.length = row.shape.arity := by simpa [operandCountOk, hrow] using hcount
    obtain ⟨hopc, hfit⟩ := lineWord_of_row (names := names) hrow harity
    exact decode_ne_malformed_of_fieldsFit (List.mem_of_find?_eq_some hrow) hopc hfit

theorem Program.image_not_malformed {p : Program} (hp : LoadedProgram p) {w : InstrWord} (hw : w ∈ p.image.imem) :
    decode w ≠ .error .malformedInstruction := by
  obtain ⟨l, hl, rfl⟩ := List.mem_map.1 hw
  exact decode_lineWord_ne_malformed p.names (hp.1 l hl)

end Sys2Proof.Machine

namespace Sys2Proof.Proofs

open Sys2Proof.Machine Sys2Proof.Claims

/-- Settles O58, from the bounds the assembler checks and what every line that loads keeps. -/
theorem assembledImagesAreWellFormed : Obligations.AssembledImagesAreWellFormed := by
  intro text im h
  obtain ⟨p, hload, hlines, hnames, rfl⟩ := assemble_ok h
  have hp := loadedProgram_of_loadLines hload
  exact ⟨p.image_wf hp hlines hnames, fun _ => p.image_not_malformed hp⟩

/-- Settles O59: a line adds one instruction or none, as it is an instruction line or not. -/
theorem addressesCountInstructionLines : Obligations.AddressesCountInstructionLines := by
  intro text im h
  obtain ⟨p, hload, -, -, rfl⟩ := assemble_ok h
  have hlen : p.image.len = p.lines.length := List.length_map ..
  rw [hlen, loadLines_lines_length hload, List.countP_eq_length_filter, List.length_nil, Nat.zero_add]

/-- Settles O57, by running the assembler on the eight texts. -/
theorem assemblerExamples : Obligations.AssemblerExamples := by
  unfold Obligations.AssemblerExamples
  decide

end Sys2Proof.Proofs
end

section
/-! SUPPORT. The text of an output record (R186) and its operand tokens read back (R71). -/

namespace Sys2Proof.Machine

/-! ### Decimal digits and their value (R71, R186) -/

theorem digitChar_toNat {d : Nat} (h : d < 10) : (digitChar d).toNat = 48 + d := by
  interval_cases d <;> rfl

theorem isDigit_digitChar {d : Nat} (h : d < 10) : isDigit (digitChar d) = true := by
  simp only [isDigit, digitChar_toNat h, Bool.and_eq_true, decide_eq_true_eq]
  omega

theorem digitChar_ne_zero {d : Nat} (h : d < 10) (hd : d ≠ 0) : digitChar d ≠ '0' := by
  intro hc
  have hcode : (digitChar d).toNat = 48 := congrArg Char.toNat hc
  rw [digitChar_toNat h] at hcode
  exact hd (Nat.add_left_cancel hcode)

theorem decimalValue_concat (ds : List Char) (c : Char) :
    decimalValue (ds ++ [c]) = 10 * decimalValue ds + (c.toNat - 48) := by
  simp [decimalValue]

section
variable {fuel n : Nat}

theorem decimalDigits_of_lt (h : n < 10) : decimalDigits (fuel + 1) n = [digitChar n] := if_pos h

theorem decimalDigits_of_ge (h : ¬ n < 10) :
    decimalDigits (fuel + 1) n = decimalDigits fuel (n / 10) ++ [digitChar (n % 10)] := if_neg h

end

/-- A number below 10^fuel is the value of its decimal digits. -/
theorem decimalValue_decimalDigits (fuel : Nat) : ∀ n, n < 10 ^ fuel → decimalValue (decimalDigits fuel n) = n := by
  induction fuel with
  | zero => intro n h; simpa [decimalDigits, decimalValue, eq_comm] using h
  | succ fuel ih =>
    intro n h
    by_cases hn : n < 10
    · rw [decimalDigits_of_lt hn, ← List.nil_append [digitChar n], decimalValue_concat, digitChar_toNat hn]
      simp [decimalValue]
    · have hlast : (digitChar (n % 10)).toNat = 48 + n % 10 := digitChar_toNat (Nat.mod_lt _ (by decide))
      rw [decimalDigits_of_ge hn, decimalValue_concat, hlast, ih (n / 10) (by omega)]
      omega

theorem all_isDigit_decimalDigits (fuel : Nat) : ∀ n, (decimalDigits fuel n).all isDigit = true := by
  induction fuel with
  | zero => exact fun _ => rfl
  | succ fuel ih =>
    intro n
    by_cases hn : n < 10
    · simp [decimalDigits_of_lt hn, isDigit_digitChar hn]
    · have hlast : isDigit (digitChar (n % 10)) = true := isDigit_digitChar (Nat.mod_lt _ (by decide))
      rw [decimalDigits_of_ge hn, List.all_append, ih, List.all_cons, hlast]
      rfl

theorem isNumber_decimalDigits (fuel n : Nat) : isNumber (decimalDigits (fuel + 1) n) = true := by
  have hne : decimalDigits (fuel + 1) n ≠ [] := by
    by_cases hn : n < 10
    · simp [decimalDigits_of_lt hn]
    · simp [decimalDigits_of_ge hn]
  simp [isNumber, hne, all_isDigit_decimalDigits (fuel + 1) n]

/-- The digits of a number that is not 0 do not begin with 0. -/
theorem exists_decimalDigits_eq_cons (fuel : Nat) : ∀ n, n ≠ 0 → n < 10 ^ fuel →
    ∃ c cs, decimalDigits fuel n = c :: cs ∧ c ≠ '0' := by
  induction fuel with
  | zero => intro n h hlt; exact absurd (Nat.lt_one_iff.1 hlt) h
  | succ fuel ih =>
    intro n h hlt
    by_cases hn : n < 10
    · exact ⟨_, [], decimalDigits_of_lt hn, digitChar_ne_zero hn h⟩
    · obtain ⟨c, cs, hdigits, hc⟩ := ih (n / 10) (by omega) (by omega)
      exact ⟨c, _, by rw [decimalDigits_of_ge hn, hdigits, List.cons_append], hc⟩

theorem decimalDigits_no_leading_zero {n : Nat} (h : n < 10 ^ 10) :
    decimalDigits 10 n = ['0'] ∨ (decimalDigits 10 n).head? ≠ some '0' := by
  by_cases hn : n = 0
  · subst hn
    exact .inl rfl
  · obtain ⟨c, cs, hdigits, hc⟩ := exists_decimalDigits_eq_cons 10 n hn h
    exact .inr (by simpa [hdigits] using hc)

/-! ### Tokens read back (R71) -/

/-- A run of digits begins with no sign. -/
theorem literalValue_of_isNumber {ds : List Char} (h : isNumber ds = true) :
    literalValue ds = some (decimalValue ds : Int) := by
  unfold literalValue
  split
  · simp [isNumber, isDigit] at h
  · simp [isNumber, isDigit] at h
  · exact if_pos h

theorem literalValue_minus_of_isNumber {ds : List Char} (h : isNumber ds = true) :
    literalValue ('-' :: ds) = some (-(decimalValue ds : Int)) := if_pos h

theorem literalValue_register_token (ds : List Char) : literalValue ('R' :: ds) = none := by
  simp [literalValue, isNumber, isDigit]

theorem fitsWord_toInt (v : Word) : fitsWord v.toInt = true := by
  have hlt := v.toInt_lt
  have hle := v.le_toInt
  simp only [fitsWord, Bool.and_eq_true, decide_eq_true_eq]
  omega

/-- A token that spells a word's value is that literal. -/
theorem classify_of_literalValue {t : Token} {v : Word} (h : literalValue t = some v.toInt) : classify t = .imm v := by
  unfold classify
  split
  · rw [literalValue_register_token] at h
    cases h
  · simp [classifyLiteral, h, fitsWord_toInt]

/-! ### The parts of the line (R186) -/

theorem classify_text (r : RegName) : classify r.text = .reg r.index := by
  have hlt : r.index < 10 ^ 10 := r.index_bounds.2.trans_lt (by decide)
  rw [RegName.text, classify_register_token (isNumber_decimalDigits 9 _), decimalValue_decimalDigits 10 _ hlt]

theorem natAbs_toInt_lt (v : Word) : v.toInt.natAbs < 10 ^ 10 := by
  have hlt := v.toInt_lt
  have hle := v.le_toInt
  omega

theorem literalValue_valueText (v : Word) : literalValue (valueText v) = some v.toInt := by
  have hdigits : isNumber (decimalDigits 10 v.toInt.natAbs) = true := isNumber_decimalDigits 9 _
  have hvalue := decimalValue_decimalDigits 10 _ (natAbs_toInt_lt v)
  unfold valueText
  split
  · rw [literalValue_minus_of_isNumber hdigits, hvalue]
    exact congrArg some (by omega)
  · rw [literalValue_of_isNumber hdigits, hvalue]
    exact congrArg some (by omega)

/-- The text of a value is its digits, with a sign in front of them if it is negative. -/
theorem valueText_eq_digits (v : Word) :
    valueText v = decimalDigits 10 v.toInt.natAbs ∨ valueText v = '-' :: decimalDigits 10 v.toInt.natAbs := by
  unfold valueText
  split
  · exact .inr rfl
  · exact .inl rfl

end Sys2Proof.Machine

namespace Sys2Proof.Proofs

open Sys2Proof.Machine

/-- Settles O60: the name is `R` and the index's digits, the value its own digits with a sign, and digits have the value
they are written for. -/
theorem printedLineReadsBack : Obligations.PrintedLineReadsBack := fun r v =>
  ⟨r.text, valueText v, rfl, classify_text r, classify_of_literalValue (literalValue_valueText v),
    decimalDigits 10 v.toInt.natAbs, valueText_eq_digits v, isNumber_decimalDigits 9 _,
    decimalDigits_no_leading_zero (natAbs_toInt_lt v)⟩

end Sys2Proof.Proofs
end
